-- ==== Sys2Proof/Word.lean ====
section
/-!
DEFINITION. The word types of the CORE hash engine block.

A byte is 8 bits and unsigned (R5); the register port moves 64-bit words (R6, `XW`); the register
index has 3 bits (R20); the operation number has 4 bits (R31).
-/

namespace Sys2Proof

/-- A byte of the source space (R5, R50). -/
abbrev Byte := BitVec 8

/-- A word of the register port, and a 64-bit accumulator (R6 `XW`, R28). -/
abbrev Word := BitVec 64

/-- The accumulator of a 32-bit operation (R5, R28). -/
abbrev Word32 := BitVec 32

/-- A register-port index (R20, R21). -/
abbrev RegIndex := BitVec 3

/-- An operation number (R31, R70). -/
abbrev FuncNo := BitVec 4

end Sys2Proof
end

