-- ==== Sys2Proof/Config.lean ====
section
/-!
DEFINITION. What a platform fixes (R6) and the values the spec leaves unspecified (R35, U3).

`XW` is fixed and stands in `Sys2Proof.Word`; `N_ENGINES` is the number of instances a state lists.
-/

namespace Sys2Proof

/-- A range of faulting byte addresses, `lo` to `lo + size - 1`. -/
structure FaultRange where
  lo   : Nat
  size : Nat
  deriving DecidableEq, Repr

/-- The parameters of R6. The source space is finite, so a list of ranges is any predicate
`MemFault` on its addresses. DESIGN CHOICE (log 4): the parameters are carried in the state as plain
data that no step writes, so that a claim about every state is a claim about every platform. -/
structure Config where
  /-- `AW`, the width of a byte address, of `SRC` and of `LEN`; 1 to 64. -/
  aw       : Nat
  /-- `MemFault`: the addresses for which the memory answers `fault`. -/
  memFault : List FaultRange
  deriving DecidableEq, Repr

/-- The values the spec takes (R6): `AW` = 64, `MemFault` empty. -/
def Config.standard : Config := { aw := 64, memFault := [] }

/-- Free value: what `ACC` holds after a reset event (R35 "unspecified"; log 2). -/
opaque Config.freeAcc : Nat → Word

/-- Free value: what `IDX` holds after a reset event, before it is cut to `AW` bits (R35; log 2). -/
opaque Config.freeIdx : Nat → Word

/-- Free value: what `FUNC` holds after a reset event (R35; log 2). -/
opaque Config.freeFunc : Nat → FuncNo

end Sys2Proof
end

