-- ==== Sys2Proof/Syntax.lean ====
section
/-!
DEFINITION. The ten commands (R1, R72), one constructor per row of spec/opcode_table.json, in the
spec's order and under the spec's own names. A command has no explicit operand (R71).
-/

namespace Sys2Proof

/-- The ten operations (R1, R72). -/
inductive Instr where
  /-- operation 0 (R120) -/
  | hash_djb2_32
  /-- operation 1 (R121) -/
  | hash_djb2_64
  /-- operation 2 (R130) -/
  | hash_djb2_32_xor
  /-- operation 3 (R131) -/
  | hash_djb2_64_xor
  /-- operation 4 (R140) -/
  | hash_fnv1a_32
  /-- operation 5 (R141) -/
  | hash_fnv1a_64
  /-- operation 6 (R150) -/
  | hash_fnv1a_32_opt
  /-- operation 7 (R151) -/
  | hash_fnv1a_64_opt
  /-- operation 8 (R160) -/
  | hash_sdbm_32
  /-- operation 9 (R161) -/
  | hash_sdbm_64
  deriving DecidableEq, Repr

end Sys2Proof
end

