-- ==== Sys2Proof/Machine/Agents.lean ====
section
/-!
DEFINITION. What the agents around the block do (R20): the lines of a host program (R76, R77), and the
turns that say which agent moves next.
-/

namespace Sys2Proof.Machine

/-- One line of a host program (R76, R77). A register is named by its index, so that the reserved
indices 5 to 7 can be written and read too (R21). `HASH` is an abbreviation of five lines
(`Sys2Proof.Machine.hashLines`). -/
inductive HostLine where
  /-- `WR`: `RegWrite(i, v)` -/
  | wr (i : RegIndex) (v : Word)
  /-- `RD`: `RegRead(i)` -/
  | rd (i : RegIndex)
  /-- `WAIT`: `RD STATUS`, again and again, until the value read has bit 1 (`DONE`) set -/
  | wait
  deriving DecidableEq, Repr

/-- What one `RegRead` of a host answered: the index and the 64-bit value. -/
structure Response where
  index : RegIndex
  value : Word
  deriving DecidableEq, Repr

/-- One `MemRead(addr, 1)` of an engine agent and its answer; `none` is the token `fault` (R9, R52). -/
structure MemRead where
  addr   : Nat
  answer : Option Byte
  deriving DecidableEq, Repr

/-- Which agent moves (R20, U10). DESIGN CHOICE (log 5): the interleaving of the agents is a list of
turns in the state. -/
inductive Turn where
  /-- the host of instance `k` performs its next register-port transaction -/
  | host (k : Nat)
  /-- the engine agent of instance `k` performs its next engine step -/
  | engine (k : Nat)
  /-- a reset event (R200) -/
  | reset
  /-- another agent of the platform writes a byte of the source space (R62, R63) -/
  | memWrite (addr : Nat) (b : Byte)
  deriving DecidableEq, Repr

end Sys2Proof.Machine
end

