-- ==== Sys2Proof/WellFormed.lean ====
section
/-!
DEFINITION. Which terms are well formed: a configuration, a turn, an instruction.
-/

namespace Sys2Proof

/-- A command has no operand, so nothing about it can be ill formed (R71). -/
def Instr.wf (_ : Instr) : Bool := true

/-- `AW` is 1 to 64 (R6). Any `MemFault` is allowed. -/
def Config.wf (c : Config) : Bool := decide (1 ≤ c.aw ∧ c.aw ≤ 64)

namespace Machine

/-- A turn names an instance that is there (`n` instances), and writes only bytes of the source space
`0` to `2^AW - 1` (R34, R50). -/
def Turn.wf (aw n : Nat) : Turn → Bool
  | .host k => decide (k < n)
  | .engine k => decide (k < n)
  | .reset => true
  | .memWrite a _ => decide (a < 2 ^ aw)

end Machine

end Sys2Proof
end

