-- ==== Sys2Proof/Decode.lean ====
section
/-!
DEFINITION. The command decoder (R70, R73, R74), total on every 64-bit word, and the encoder, written
from the field table of R70 and the numbering of R72.
-/

namespace Sys2Proof

/-- What a command word decodes to (R73): an operation, or illegal, with the reason by name. -/
inductive Decoded where
  | operation (i : Instr)
  /-- a bit of the reserved field `ZERO` = `v[63:4]` is set -/
  | illegalZeroField
  /-- `v[63:4] = 0` and `FUNC` = `v[3:0]` is 10 to 15 (`ALG` 5, 6 or 7) -/
  | illegalFunc
  deriving DecidableEq, Repr

/-- `FUNC = v[3:0]` (R70). -/
def funcField (v : Word) : FuncNo := v.extractLsb' 0 4

/-- `ZERO = v[63:4]` (R70). -/
def zeroField (v : Word) : BitVec 60 := v.extractLsb' 4 60

/-- The operation of an operation number (R72); `none` for the reserved numbers 10 to 15. -/
def opOfFunc (f : FuncNo) : Option Instr :=
  match f.toNat with
  | 0 => some .hash_djb2_32
  | 1 => some .hash_djb2_64
  | 2 => some .hash_djb2_32_xor
  | 3 => some .hash_djb2_64_xor
  | 4 => some .hash_fnv1a_32
  | 5 => some .hash_fnv1a_64
  | 6 => some .hash_fnv1a_32_opt
  | 7 => some .hash_fnv1a_64_opt
  | 8 => some .hash_sdbm_32
  | 9 => some .hash_sdbm_64
  | _ => none

/-- Decoding of a command word (R73). -/
def decode (v : Word) : Decoded :=
  if zeroField v ≠ 0 then .illegalZeroField
  else
    match opOfFunc (funcField v) with
    | some i => .operation i
    | none => .illegalFunc

/-- The field `ALG` of an operation (R70, R72). -/
def algField : Instr → BitVec 3
  | .hash_djb2_32 => 0
  | .hash_djb2_64 => 0
  | .hash_djb2_32_xor => 1
  | .hash_djb2_64_xor => 1
  | .hash_fnv1a_32 => 2
  | .hash_fnv1a_64 => 2
  | .hash_fnv1a_32_opt => 3
  | .hash_fnv1a_64_opt => 3
  | .hash_sdbm_32 => 4
  | .hash_sdbm_64 => 4

/-- The field `WIDTH` of an operation (R70, R72): 0 for a 32-bit, 1 for a 64-bit operation. -/
def widthField : Instr → BitVec 1
  | .hash_djb2_32 => 0
  | .hash_djb2_64 => 1
  | .hash_djb2_32_xor => 0
  | .hash_djb2_64_xor => 1
  | .hash_fnv1a_32 => 0
  | .hash_fnv1a_64 => 1
  | .hash_fnv1a_32_opt => 0
  | .hash_fnv1a_64_opt => 1
  | .hash_sdbm_32 => 0
  | .hash_sdbm_64 => 1

/-- The operation number `FUNC = {ALG, WIDTH}` (R70). -/
def funcOf (i : Instr) : FuncNo := algField i ++ widthField i

/-- The command word of an operation: `ZERO`, `ALG`, `WIDTH` from the high bits down (R70, R72). -/
def encode (i : Instr) : Word := (0 : BitVec 60) ++ (algField i ++ widthField i)

/-- The width `W(f)` of an operation number (R9, R31): 32 when `FUNC[0] = 0`, 64 when it is 1. -/
def widthOf (f : FuncNo) : Nat := if f.getLsbD 0 then 64 else 32

/-- The decoder on a word as the opcode table numbers its bits. A command is one 64-bit value (R75), so
a row of `nbits` bits is that value with zeros above `nbits`; a value that needs more than 64 bits is no
command. There is no byte order to apply: the register port moves whole words (R53). -/
def decodeTableWord (nbits w : Nat) : Option Instr :=
  if w % 2 ^ nbits < 2 ^ 64 then
    match decode (BitVec.ofNat 64 (w % 2 ^ nbits)) with
    | .operation i => some i
    | .illegalZeroField => none
    | .illegalFunc => none
  else none

end Sys2Proof
end

