-- ==== Sys2Proof/Machine/Arith.lean ====
section
/-!
DEFINITION. The arithmetic primitives of R8 at every width, and the two conversions of R8 at the widths
that occur. Every value is unsigned (R7); every result is modulo `2^W` (R100).
-/

namespace Sys2Proof.Machine

/-- `add_W(a, b) = (a + b) mod 2^W` (R8). -/
def addW {w : Nat} (a b : BitVec w) : BitVec w := a + b

/-- `sub_W(a, b) = (a - b) mod 2^W`, wrapping (R8, R102). -/
def subW {w : Nat} (a b : BitVec w) : BitVec w := a - b

/-- `mul_W(a, b) = (a * b) mod 2^W` (R8). -/
def mulW {w : Nat} (a b : BitVec w) : BitVec w := a * b

/-- `shl_W(a, k) = (a * 2^k) mod 2^W` (R8). -/
def shlW {w : Nat} (a : BitVec w) (k : Nat) : BitVec w := a <<< k

/-- `xor_W(a, b)`, bitwise (R8, R104). -/
def xorW {w : Nat} (a b : BitVec w) : BitVec w := a ^^^ b

/-- `zext_32` of a byte (R8, R108). -/
def zextByte32 (b : Byte) : Word32 := b.setWidth 32

/-- `zext_64` of a byte (R8, R108). -/
def zextByte64 (b : Byte) : Word := b.setWidth 64

/-- `zext_64` of a 32-bit value (R8, R28). -/
def zext64 (a : Word32) : Word := a.setWidth 64

/-- `trunc_32(v)`, that is `v[31:0]` (R8). -/
def trunc32 (v : Word) : Word32 := v.setWidth 32

end Sys2Proof.Machine
end

