-- ==== Sys2Proof/Machine/Flags.lean ====
section
/-!
DEFINITION. The fields of `STATUS` (R25): how each is read and written, and the values `STATUS` takes (R26).
The block has no arithmetic flag (R25, R100).
-/

namespace Sys2Proof.Machine

/-- `w` with the bits of `mask` taken from `v`; every other bit, the reserved ones among them, stays. -/
def setBits (w mask v : Word) : Word := (w &&& ~~~mask) ||| (v &&& mask)

/-- All bits equal to `b`. -/
def allBits (b : Bool) : Word := if b then BitVec.allOnes 64 else 0

/-- `STATUS.BUSY`, bit 0 (R25). -/
def statusBusy (w : Word) : Bool := w.getLsbD 0

/-- `STATUS.DONE`, bit 1 (R25). -/
def statusDone (w : Word) : Bool := w.getLsbD 1

/-- `STATUS.ERR`, bit 2 (R25). -/
def statusErr (w : Word) : Bool := w.getLsbD 2

/-- `STATUS.ERRCODE`, bits 7:4 (R25). -/
def statusErrCode (w : Word) : BitVec 4 := w.extractLsb' 4 4

/-- `STATUS.BUSY <- b`. -/
def setBusy (b : Bool) (w : Word) : Word := setBits w 0x01 (allBits b)

/-- `STATUS.DONE <- b`. -/
def setDone (b : Bool) (w : Word) : Word := setBits w 0x02 (allBits b)

/-- `STATUS.ERR <- b`. -/
def setErr (b : Bool) (w : Word) : Word := setBits w 0x04 (allBits b)

/-- `STATUS.ERRCODE <- c`. -/
def setErrCode (c : BitVec 4) (w : Word) : Word := setBits w 0xF0 (c.setWidth 64 <<< 4)

/-- `ERRCODE` of `InvalidInput` (R171). -/
def codeInvalidInput : BitVec 4 := 1

/-- `ERRCODE` of `IllegalCmd` (R172). -/
def codeIllegalCmd : BitVec 4 := 2

/-- The four writes to `STATUS` at command acceptance (R92). -/
def statusAccepted (w : Word) : Word :=
  setErrCode 0 (setErr false (setDone false (setBusy true w)))

/-- The two writes to `STATUS` at the completion step (R95). -/
def statusCompleted (w : Word) : Word := setDone true (setBusy false w)

/-- The values `STATUS` reads as (R26). -/
def legalStatus : List Word := [0x00, 0x01, 0x02, 0x16, 0x26]

end Sys2Proof.Machine
end

