-- ==== Sys2Proof/Machine/State.lean ====
section
/-!
DEFINITION. The state of the block and of the world its rules name, as plain data, and its value at reset.
INVENTORY.md lists every field with the rule that names it and its reset value.
-/

namespace Sys2Proof.Machine

/-- The source space (R50): the bytes that are listed, addresses strictly rising. An address that is not
listed reads as `Memory.unlisted`, and no listed byte equals it (`Memory.wf` in Machine/Ops.lean). -/
abbrev Memory := List Host.Cell

/-- One instance of the block (R34) with the host that drives its register port. -/
structure Instance where
  /-- `SRC`, register 0 (R22) -/
  src    : Word
  /-- `LEN`, register 1 (R23) -/
  len    : Word
  /-- `STATUS`, register 3 (R25): `BUSY` 0, `DONE` 1, `ERR` 2, `ERRCODE` 7:4 -/
  status : Word
  /-- `DIGEST`, register 4 (R27) -/
  digest : Word
  /-- `ACC`, hidden (R28) -/
  acc    : Word
  /-- `IDX`, hidden, `AW` bits (R29) -/
  idx    : Word
  /-- `FUNC`, hidden, 4 bits (R31) -/
  func   : FuncNo
  /-- model's own (log 6): the lines the host has still to perform, next one first -/
  todo   : List HostLine
  /-- model's own (log 6): what the host's reads answered, oldest first -/
  seen   : List Response
  /-- model's own (log 7): the reads made for the command last accepted, oldest first -/
  reads  : List MemRead
  deriving DecidableEq, Repr

/-- The whole machine: the instances, the memory they read, the platform's parameters, and the turns of
the agents. -/
structure State where
  /-- the parameters of R6; no step writes them (log 4) -/
  cfg    : Config
  /-- the instances of the block, `N_ENGINES` of them (R6, R34; log 11) -/
  insts  : List Instance
  /-- model's own (log 11): the instance the current turn concerns -/
  active : Nat
  /-- the source space (R50), owned by the platform (R33) -/
  mem    : Memory
  /-- model's own (log 5): which agents move next, in order -/
  turns  : List Turn
  /-- model's own (log 2): selects the next free values -/
  fresh  : Nat
  deriving DecidableEq, Repr

/-- Why the model stops. Neither is an error of the block: those are values of `STATUS` (R170). -/
inductive Fault where
  /-- Raised by `step` for a turn that names an instance that does not exist or a byte outside the source
  space (log 10). Safe: the model stops where the spec describes no event. -/
  | illFormedTurn
  /-- Raised by an engine step with `BUSY = 1` and `FUNC` above 9 or `IDX` above `LEN`, where none of R93,
  R94, R95 applies (log 9). Safe: no run reaches such a state. -/
  | noEngineRule
  deriving DecidableEq, Repr

/-- An instruction without a meaning. Raised by no arm of `exec`: every operation has its meaning. -/
inductive Refusal where
  /-- Raised by an arm of `exec` for an instruction that is not modelled yet. Safe. -/
  | notModelled (mnemonic : String)
  deriving DecidableEq, Repr

/-- An instance after reset (R35). `ACC`, `IDX` and `FUNC` are unspecified there: the zeros are a
DESIGN CHOICE (log 1). -/
def Instance.reset : Instance where
  src := 0
  len := 0
  status := 0
  digest := 0
  acc := 0
  idx := 0
  func := 0
  todo := []
  seen := []
  reads := []

/-- The machine right after reset (R35, R201) with the parameters of R6: one instance, idle, no host
program, no turn, nothing listed in memory. -/
def State.reset : State where
  cfg := Config.standard
  insts := [Instance.reset]
  active := 0
  mem := []
  turns := []
  fresh := 0

end Sys2Proof.Machine
end

