-- ==== Sys2Proof/Machine/Operands.lean ====
section
/-!
DEFINITION. The one operand form of the block (R71, R108): the message reference `SRC`, the length `LEN`,
the byte address `SRC + IDX`, and when a reference is absent or invalid (R58, R59, R91).
-/

namespace Sys2Proof.Machine

/-- `zext_64(v[AW-1:0])` (R22, R23): what an `AW`-bit register stores of a 64-bit value. -/
def lowBits (aw : Nat) (v : Word) : Word := BitVec.ofNat 64 (v.toNat % 2 ^ aw)

/-- The condition of R91: `LEN != 0` and (`SRC = 0` or `SRC + LEN > 2^AW`, over the integers). With
`LEN = 0` the value of `SRC` is not looked at (R58). -/
def invalidReference (aw : Nat) (src len : Word) : Bool :=
  decide (len ≠ 0 ∧ (src = 0 ∨ src.toNat + len.toNat > 2 ^ aw))

/-- The address of byte `IDX` of the message: `SRC + IDX` as an unsigned `AW`-bit number (R60, R108).
R91 keeps the sum below `2^AW` in every run. -/
def byteAddress (aw : Nat) (src idx : Word) : Nat := (src.toNat + idx.toNat) % 2 ^ aw

/-- `IDX + 1` as an `AW`-bit number (R29, R93). It cannot wrap in a run (R30). -/
def nextIdx (aw : Nat) (idx : Word) : Word := BitVec.ofNat 64 ((idx.toNat + 1) % 2 ^ aw)

end Sys2Proof.Machine
end

