-- ==== Sys2Proof/Machine/Ops.lean ====
section
/-!
DEFINITION. The named operations over memory, registers and the active instance: reads and writes of the
source space, raising an error (R171, R172, R177), command acceptance (R90 to R92), and the register
port's read (R21).
-/

namespace Sys2Proof.Machine

/-! ### Memory (R50, R52) -/

/-- What an address reads as that nothing lists. DESIGN CHOICE (log 3): the spec gives memory no contents. -/
def Memory.unlisted : Byte := 0

/-- The byte the memory holds at an address. -/
def Memory.read (m : Memory) (a : Nat) : Byte :=
  match m with
  | [] => Memory.unlisted
  | c :: rest => if a < c.1 then Memory.unlisted else if a = c.1 then c.2 else Memory.read rest a

/-- A cell put in front, unless its byte is what an unlisted address reads as. -/
def Memory.cons (a : Nat) (b : Byte) (m : Memory) : Memory :=
  if b = Memory.unlisted then m else (a, b) :: m

/-- A byte written, the canonical form kept. The block never does this (R55); other agents do (R63). -/
def Memory.write (m : Memory) (a : Nat) (b : Byte) : Memory :=
  match m with
  | [] => Memory.cons a b []
  | c :: rest =>
    if a < c.1 then Memory.cons a b (c :: rest)
    else if a = c.1 then Memory.cons a b rest
    else c :: Memory.write rest a b

/-- Every cell lies at `lo` or above, addresses rise strictly, and no cell holds the unlisted byte. -/
def Memory.wfFrom (lo : Nat) : Memory → Bool
  | [] => true
  | c :: rest => decide (lo ≤ c.1) && decide (c.2 ≠ Memory.unlisted) && Memory.wfFrom (c.1 + 1) rest

/-- The canonical form of a memory. -/
def Memory.wf (m : Memory) : Bool := Memory.wfFrom 0 m

/-- Every listed address lies in the source space `0` to `2^AW - 1` (R50). -/
def Memory.inSpace (aw : Nat) (m : Memory) : Bool := m.all fun c => decide (c.1 < 2 ^ aw)

/-- `MemFault(addr)` (R6, R52). -/
def memFaultAt (c : Config) (a : Nat) : Bool :=
  c.memFault.any fun r => decide (r.lo ≤ a ∧ a < r.lo + r.size)

/-- The answer to `MemRead(addr, 1)` (R52): `none` is the token `fault`. -/
def memAnswer (c : Config) (m : Memory) (a : Nat) : Option Byte :=
  if memFaultAt c a then none else some (Memory.read m a)

/-! ### The active instance -/

/-- The instance the current turn concerns. -/
def State.inst (s : State) : Instance := (s.insts[s.active]?).getD Instance.reset

/-- The state with the active instance replaced. -/
def State.setInst (s : State) (e : Instance) : State := { s with insts := s.insts.set s.active e }

/-- The state with another instance active. -/
def State.setActive (s : State) (k : Nat) : State := { s with active := k }

/-- The state with the remaining turns replaced. -/
def State.setTurns (s : State) (ts : List Turn) : State := { s with turns := ts }

/-- The state with the source space replaced. -/
def State.setMem (s : State) (m : Memory) : State := { s with mem := m }

/-- The instance with the host's remaining lines replaced. -/
def Instance.setTodo (e : Instance) (ls : List HostLine) : Instance := { e with todo := ls }

/-- `BUSY` of an instance (R25). -/
def Instance.busy (e : Instance) : Bool := statusBusy e.status

/-! ### Taking an error (R177) -/

/-- The writes to `STATUS` that both errors make: `DONE`, `ERR` and `ERRCODE` (R171, R172). Raising an
error saves nothing, changes no mode and transfers no control (R177). -/
def raiseError (code : BitVec 4) (e : Instance) : Instance :=
  { e with status := setErrCode code (setErr true (setDone true e.status)) }

/-- `raise InvalidInput` (R171): `BUSY` is cleared as well. -/
def raiseInvalidInput (e : Instance) : Instance :=
  raiseError codeInvalidInput { e with status := setBusy false e.status }

/-- `raise IllegalCmd` (R172): `BUSY` stays as it is. There is no return operation (R178): `ERR` and
`ERRCODE` go with the next accepted command, the next error or a reset. -/
def raiseIllegalCmd (e : Instance) : Instance := raiseError codeIllegalCmd e

/-! ### Commands (R90, R91, R92) -/

/-- The writes of command acceptance (R92). The list of reads starts anew (log 7). -/
def accept (f : FuncNo) (init : Word) (e : Instance) : Instance :=
  { e with func := f, acc := init, idx := 0, status := statusAccepted e.status, reads := [] }

/-- A legal command written to `CMD` of the active instance: ignored while `BUSY = 1` (R24, R211),
otherwise refused with `InvalidInput` (R91) or accepted (R92). -/
def commandOp (f : FuncNo) (init : Word) (s : State) : Host.Outcome State Fault Refusal :=
  if s.inst.busy then .next s
  else if invalidReference s.cfg.aw s.inst.src s.inst.len then .next (s.setInst (raiseInvalidInput s.inst))
  else .next (s.setInst (accept f init s.inst))

/-- An illegal command written to `CMD` of the active instance: ignored while `BUSY = 1` (R24, R211),
otherwise `IllegalCmd`, whatever `SRC` and `LEN` hold (R90, R176). -/
def illegalCommand (s : State) : State :=
  if s.inst.busy then s else s.setInst (raiseIllegalCmd s.inst)

/-! ### The register port's reads (R21) -/

/-- `RegRead(i)`: the value answered. `CMD` and the reserved indices 5, 6, 7 read 0 (R21, R24). -/
def regValue (i : RegIndex) (e : Instance) : Word :=
  match i.toNat with
  | 0 => e.src
  | 1 => e.len
  | 2 => 0
  | 3 => e.status
  | 4 => e.digest
  | _ => 0

/-- A `RegRead(i)` performed: it changes no register, and the host has seen the value. -/
def regRead (i : RegIndex) (e : Instance) : Instance :=
  { e with seen := e.seen ++ [{ index := i, value := regValue i e }] }

/-! ### Reset (R200) -/

/-- What a reset event makes of one instance (R35): `SRC`, `LEN`, `STATUS`, `DIGEST` are 0 and the hidden
registers hold free values (log 2). The host's program and what it has seen are the host's, and the list
of reads made is history: they stay (logs 7, 18). -/
def resetInstance (aw n : Nat) (e : Instance) : Instance :=
  { e with
    src := 0, len := 0, status := 0, digest := 0,
    acc := Config.freeAcc n, idx := lowBits aw (Config.freeIdx n), func := Config.freeFunc n }

/-- Every instance reset, each with free values of its own. -/
def resetInstances (aw n : Nat) : List Instance → List Instance
  | [] => []
  | e :: rest => resetInstance aw n e :: resetInstances aw (n + 1) rest

/-- A reset event: every instance at once, in any state (R200). -/
def resetEvent (s : State) : State :=
  { s with insts := resetInstances s.cfg.aw s.fresh s.insts, fresh := s.fresh + s.insts.length }

/-! ### Host notation (R76, R77) -/

/-- `HASH f, ptr, len` (R77). -/
def hashLines (f : Instr) (ptr len : Word) : List HostLine :=
  [.wr 0 ptr, .wr 1 len, .wr 2 (encode f), .wait, .rd 4]

end Sys2Proof.Machine
end

