-- ==== Sys2Proof/Machine/Djb2.lean ====
section
/-!
DEFINITION. DJB2 (standard), operations 0 and 1 (R120, R121).
-/

namespace Sys2Proof.Machine

/-- `init(0)` (R120). -/
def initDjb2_32 : Word32 := 5381

/-- `step(0, acc, b)` (R120). -/
def stepDjb2_32 (acc b : Word32) : Word32 := addW (addW (shlW acc 5) acc) b

/-- `hash_djb2_32` written to `CMD`: operation number 0, `ACC` loaded with `init(0)` (R120, R91, R92).
The engine steps that follow fold `step(0)` over the message (Machine/Engine.lean; R93 to R95). -/
def execHashDjb2_32 (s : State) : Host.Outcome State Fault Refusal := commandOp 0 (zext64 initDjb2_32) s

/-- `init(1)` (R121). -/
def initDjb2_64 : Word := 5381

/-- `step(1, acc, b)` (R121). -/
def stepDjb2_64 (acc b : Word) : Word := addW (addW (shlW acc 5) acc) b

/-- `hash_djb2_64` written to `CMD`: operation number 1, `ACC` loaded with `init(1)` (R121, R91, R92).
The engine steps that follow fold `step(1)` over the message (Machine/Engine.lean; R93 to R95). -/
def execHashDjb2_64 (s : State) : Host.Outcome State Fault Refusal := commandOp 1 initDjb2_64 s

end Sys2Proof.Machine
end

