-- ==== Sys2Proof/Machine/Djb2Xor.lean ====
section
/-!
DEFINITION. DJB2-XOR, operations 2 and 3 (R130, R131). The addition comes first, over all `W` bits; the
exclusive or is applied to its result. Each step is written on its own, not derived from DJB2's (R112, R132).
-/

namespace Sys2Proof.Machine

/-- `init(2)` (R130). -/
def initDjb2Xor_32 : Word32 := 5381

/-- `step(2, acc, b)` (R130). -/
def stepDjb2Xor_32 (acc b : Word32) : Word32 := xorW (addW (shlW acc 5) acc) b

/-- `hash_djb2_32_xor` written to `CMD`: operation number 2, `ACC` loaded with `init(2)` (R130, R91, R92).
The engine steps that follow fold `step(2)` over the message (Machine/Engine.lean; R93 to R95). -/
def execHashDjb2Xor_32 (s : State) : Host.Outcome State Fault Refusal := commandOp 2 (zext64 initDjb2Xor_32) s

/-- `init(3)` (R131). -/
def initDjb2Xor_64 : Word := 5381

/-- `step(3, acc, b)` (R131). -/
def stepDjb2Xor_64 (acc b : Word) : Word := xorW (addW (shlW acc 5) acc) b

/-- `hash_djb2_64_xor` written to `CMD`: operation number 3, `ACC` loaded with `init(3)` (R131, R91, R92).
The engine steps that follow fold `step(3)` over the message (Machine/Engine.lean; R93 to R95). -/
def execHashDjb2Xor_64 (s : State) : Host.Outcome State Fault Refusal := commandOp 3 initDjb2Xor_64 s

end Sys2Proof.Machine
end

