-- ==== Sys2Proof/Machine/Fnv1a.lean ====
section
/-!
DEFINITION. FNV-1a with reference multiplication, operations 4 and 5 (R140, R141): the exclusive or comes
before the multiplication.
-/

namespace Sys2Proof.Machine

/-- `init(4)` (R140). -/
def initFnv1a_32 : Word32 := 2166136261

/-- `step(4, acc, b)` (R140). -/
def stepFnv1a_32 (acc b : Word32) : Word32 := mulW (xorW acc b) 16777619

/-- `hash_fnv1a_32` written to `CMD`: operation number 4, `ACC` loaded with `init(4)` (R140, R91, R92).
The engine steps that follow fold `step(4)` over the message (Machine/Engine.lean; R93 to R95). -/
def execHashFnv1a_32 (s : State) : Host.Outcome State Fault Refusal := commandOp 4 (zext64 initFnv1a_32) s

/-- `init(5)` (R141). -/
def initFnv1a_64 : Word := 14695981039346656037

/-- `step(5, acc, b)` (R141). -/
def stepFnv1a_64 (acc b : Word) : Word := mulW (xorW acc b) 1099511628211

/-- `hash_fnv1a_64` written to `CMD`: operation number 5, `ACC` loaded with `init(5)` (R141, R91, R92).
The engine steps that follow fold `step(5)` over the message (Machine/Engine.lean; R93 to R95). -/
def execHashFnv1a_64 (s : State) : Host.Outcome State Fault Refusal := commandOp 5 initFnv1a_64 s

end Sys2Proof.Machine
end

