-- ==== Sys2Proof/Machine/Fnv1aOpt.lean ====
section
/-!
DEFINITION. FNV-1a with shift-optimised multiplication, operations 6 and 7 (R150, R151). The sums of
shifts are kept as sums (R152): six terms at 32 bits, seven at 64.
-/

namespace Sys2Proof.Machine

/-- `init(6)` (R150). -/
def initFnv1aOpt_32 : Word32 := 2166136261

/-- The sum of shifts that stands for the multiplication by the 32-bit FNV prime (R150). -/
def shiftSumFnv1aOpt_32 (t : Word32) : Word32 :=
  addW (addW (addW (addW (addW t (shlW t 1)) (shlW t 4)) (shlW t 7)) (shlW t 8)) (shlW t 24)

/-- `step(6, acc, b)` (R150). -/
def stepFnv1aOpt_32 (acc b : Word32) : Word32 := shiftSumFnv1aOpt_32 (xorW acc b)

/-- `hash_fnv1a_32_opt` written to `CMD`: operation number 6, `ACC` loaded with `init(6)` (R150, R91, R92).
The engine steps that follow fold `step(6)` over the message (Machine/Engine.lean; R93 to R95). -/
def execHashFnv1aOpt_32 (s : State) : Host.Outcome State Fault Refusal := commandOp 6 (zext64 initFnv1aOpt_32) s

/-- `init(7)` (R151). -/
def initFnv1aOpt_64 : Word := 14695981039346656037

/-- The sum of shifts that stands for the multiplication by the 64-bit FNV prime (R151). -/
def shiftSumFnv1aOpt_64 (t : Word) : Word :=
  addW (addW (addW (addW (addW (addW t (shlW t 1)) (shlW t 4)) (shlW t 5)) (shlW t 7)) (shlW t 8)) (shlW t 40)

/-- `step(7, acc, b)` (R151). -/
def stepFnv1aOpt_64 (acc b : Word) : Word := shiftSumFnv1aOpt_64 (xorW acc b)

/-- `hash_fnv1a_64_opt` written to `CMD`: operation number 7, `ACC` loaded with `init(7)` (R151, R91, R92).
The engine steps that follow fold `step(7)` over the message (Machine/Engine.lean; R93 to R95). -/
def execHashFnv1aOpt_64 (s : State) : Host.Outcome State Fault Refusal := commandOp 7 initFnv1aOpt_64 s

end Sys2Proof.Machine
end

