-- ==== Sys2Proof/Machine/Sdbm.lean ====
section
/-!
DEFINITION. SDBM, operations 8 and 9 (R160, R161). Every `acc` on the right is the accumulator before the
step; the subtraction wraps (R102).
-/

namespace Sys2Proof.Machine

/-- `init(8)` (R160). -/
def initSdbm_32 : Word32 := 0

/-- `step(8, acc, b)` (R160). -/
def stepSdbm_32 (acc b : Word32) : Word32 := subW (addW (addW b (shlW acc 6)) (shlW acc 16)) acc

/-- `hash_sdbm_32` written to `CMD`: operation number 8, `ACC` loaded with `init(8)` (R160, R91, R92).
The engine steps that follow fold `step(8)` over the message (Machine/Engine.lean; R93 to R95). -/
def execHashSdbm_32 (s : State) : Host.Outcome State Fault Refusal := commandOp 8 (zext64 initSdbm_32) s

/-- `init(9)` (R161). -/
def initSdbm_64 : Word := 0

/-- `step(9, acc, b)` (R161). -/
def stepSdbm_64 (acc b : Word) : Word := subW (addW (addW b (shlW acc 6)) (shlW acc 16)) acc

/-- `hash_sdbm_64` written to `CMD`: operation number 9, `ACC` loaded with `init(9)` (R161, R91, R92).
The engine steps that follow fold `step(9)` over the message (Machine/Engine.lean; R93 to R95). -/
def execHashSdbm_64 (s : State) : Host.Outcome State Fault Refusal := commandOp 9 initSdbm_64 s

end Sys2Proof.Machine
end

