-- ==== Sys2Proof/Machine/Digest.lean ====
section
/-!
DEFINITION. The digest as a function of the byte list (R96): ten folds, each from its own `init` with its own
`step` (R112), and the two functions of an operation that the engine steps use.
-/

namespace Sys2Proof.Machine

/-- `H(0, m)`, `hash_djb2_32` of a byte list (R96, R120). -/
def digestDjb2_32 (m : List Byte) : Word32 :=
  m.foldl (fun acc r => stepDjb2_32 acc (zextByte32 r)) initDjb2_32

/-- `H(1, m)`, `hash_djb2_64` of a byte list (R96, R121). -/
def digestDjb2_64 (m : List Byte) : Word :=
  m.foldl (fun acc r => stepDjb2_64 acc (zextByte64 r)) initDjb2_64

/-- `H(2, m)`, `hash_djb2_32_xor` of a byte list (R96, R130). -/
def digestDjb2Xor_32 (m : List Byte) : Word32 :=
  m.foldl (fun acc r => stepDjb2Xor_32 acc (zextByte32 r)) initDjb2Xor_32

/-- `H(3, m)`, `hash_djb2_64_xor` of a byte list (R96, R131). -/
def digestDjb2Xor_64 (m : List Byte) : Word :=
  m.foldl (fun acc r => stepDjb2Xor_64 acc (zextByte64 r)) initDjb2Xor_64

/-- `H(4, m)`, `hash_fnv1a_32` of a byte list (R96, R140). -/
def digestFnv1a_32 (m : List Byte) : Word32 :=
  m.foldl (fun acc r => stepFnv1a_32 acc (zextByte32 r)) initFnv1a_32

/-- `H(5, m)`, `hash_fnv1a_64` of a byte list (R96, R141). -/
def digestFnv1a_64 (m : List Byte) : Word :=
  m.foldl (fun acc r => stepFnv1a_64 acc (zextByte64 r)) initFnv1a_64

/-- `H(6, m)`, `hash_fnv1a_32_opt` of a byte list (R96, R150). -/
def digestFnv1aOpt_32 (m : List Byte) : Word32 :=
  m.foldl (fun acc r => stepFnv1aOpt_32 acc (zextByte32 r)) initFnv1aOpt_32

/-- `H(7, m)`, `hash_fnv1a_64_opt` of a byte list (R96, R151). -/
def digestFnv1aOpt_64 (m : List Byte) : Word :=
  m.foldl (fun acc r => stepFnv1aOpt_64 acc (zextByte64 r)) initFnv1aOpt_64

/-- `H(8, m)`, `hash_sdbm_32` of a byte list (R96, R160). -/
def digestSdbm_32 (m : List Byte) : Word32 :=
  m.foldl (fun acc r => stepSdbm_32 acc (zextByte32 r)) initSdbm_32

/-- `H(9, m)`, `hash_sdbm_64` of a byte list (R96, R161). -/
def digestSdbm_64 (m : List Byte) : Word :=
  m.foldl (fun acc r => stepSdbm_64 acc (zextByte64 r)) initSdbm_64

/-- `zext_64(init(i))`: the accumulator register before the first byte (R92). -/
def initAcc : Instr → Word
  | .hash_djb2_32 => zext64 initDjb2_32
  | .hash_djb2_64 => initDjb2_64
  | .hash_djb2_32_xor => zext64 initDjb2Xor_32
  | .hash_djb2_64_xor => initDjb2Xor_64
  | .hash_fnv1a_32 => zext64 initFnv1a_32
  | .hash_fnv1a_64 => initFnv1a_64
  | .hash_fnv1a_32_opt => zext64 initFnv1aOpt_32
  | .hash_fnv1a_64_opt => initFnv1aOpt_64
  | .hash_sdbm_32 => zext64 initSdbm_32
  | .hash_sdbm_64 => initSdbm_64

/-- `zext_64(step(i, ACC[W-1:0], zext_W(r)))`: the accumulator register after one more byte (R93). -/
def stepAcc (i : Instr) (acc : Word) (r : Byte) : Word :=
  match i with
  | .hash_djb2_32 => zext64 (stepDjb2_32 (trunc32 acc) (zextByte32 r))
  | .hash_djb2_64 => stepDjb2_64 acc (zextByte64 r)
  | .hash_djb2_32_xor => zext64 (stepDjb2Xor_32 (trunc32 acc) (zextByte32 r))
  | .hash_djb2_64_xor => stepDjb2Xor_64 acc (zextByte64 r)
  | .hash_fnv1a_32 => zext64 (stepFnv1a_32 (trunc32 acc) (zextByte32 r))
  | .hash_fnv1a_64 => stepFnv1a_64 acc (zextByte64 r)
  | .hash_fnv1a_32_opt => zext64 (stepFnv1aOpt_32 (trunc32 acc) (zextByte32 r))
  | .hash_fnv1a_64_opt => stepFnv1aOpt_64 acc (zextByte64 r)
  | .hash_sdbm_32 => zext64 (stepSdbm_32 (trunc32 acc) (zextByte32 r))
  | .hash_sdbm_64 => stepSdbm_64 acc (zextByte64 r)

/-- `zext_64(H(i, m))`: the digest as the register `DIGEST` shows it (R27, R96). -/
def hashWord (i : Instr) (m : List Byte) : Word :=
  match i with
  | .hash_djb2_32 => zext64 (digestDjb2_32 m)
  | .hash_djb2_64 => digestDjb2_64 m
  | .hash_djb2_32_xor => zext64 (digestDjb2Xor_32 m)
  | .hash_djb2_64_xor => digestDjb2Xor_64 m
  | .hash_fnv1a_32 => zext64 (digestFnv1a_32 m)
  | .hash_fnv1a_64 => digestFnv1a_64 m
  | .hash_fnv1a_32_opt => zext64 (digestFnv1aOpt_32 m)
  | .hash_fnv1a_64_opt => digestFnv1aOpt_64 m
  | .hash_sdbm_32 => zext64 (digestSdbm_32 m)
  | .hash_sdbm_64 => digestSdbm_64 m

end Sys2Proof.Machine
end

