-- ==== Sys2Proof/Machine/Engine.lean ====
section
/-!
DEFINITION. The engine agent's steps (R93, R94, R95) on the active instance.
-/

namespace Sys2Proof.Machine

/-- One read added to the list of reads made (log 7). -/
def recordRead (a : Nat) (ans : Option Byte) (e : Instance) : Instance :=
  { e with reads := e.reads ++ [{ addr := a, answer := ans }] }

/-- Byte step (R93): the byte `r` answered for byte `IDX` is folded in. -/
def byteStep (aw : Nat) (i : Instr) (r : Byte) (e : Instance) : Instance :=
  { e with acc := stepAcc i e.acc r, idx := nextIdx aw e.idx }

/-- `zext_64(ACC[W-1:0])` with `W = W(FUNC)` (R27, R95). -/
def digestValue (f : FuncNo) (acc : Word) : Word :=
  if widthOf f = 64 then acc else zext64 (trunc32 acc)

/-- Completion step (R95). -/
def completionStep (e : Instance) : Instance :=
  { e with digest := digestValue e.func e.acc, status := statusCompleted e.status }

/-- What the engine agent does with the answer to the read of byte `IDX`: a byte step (R93), or, on
`fault`, `raise InvalidInput` with `ACC`, `IDX`, `FUNC` left as they are (R94). -/
def readStep (aw : Nat) (i : Instr) (a : Nat) (ans : Option Byte) (e : Instance) : Instance :=
  match ans with
  | some r => byteStep aw i r (recordRead a ans e)
  | none => raiseInvalidInput (recordRead a ans e)

/-- One step of the engine agent of the active instance. It has none while `BUSY = 0` (R99). The cases
where `BUSY = 1` and no rule applies are reached by no run (log 9). -/
def engineStep (s : State) : Host.Outcome State Fault Refusal :=
  if s.inst.busy then
    match opOfFunc s.inst.func with
    | none => .fault .noEngineRule
    | some i =>
      if s.inst.idx.toNat < s.inst.len.toNat then
        let a := byteAddress s.cfg.aw s.inst.src s.inst.idx
        .next (s.setInst (readStep s.cfg.aw i a (memAnswer s.cfg s.mem a) s.inst))
      else if s.inst.idx = s.inst.len then .next (s.setInst (completionStep s.inst))
      else .fault .noEngineRule
  else .next s

end Sys2Proof.Machine
end

