-- ==== Sys2Proof/Machine/Dispatch.lean ====
section
/-!
DEFINITION. One arm per command: what writing it to `CMD` of the active instance does (R24, R91, R92).
-/

namespace Sys2Proof.Machine

/-- The command `i` written to `CMD` of the active instance. -/
def exec (i : Instr) (s : State) : Host.Outcome State Fault Refusal :=
  match i with
  | .hash_djb2_32 => Sys2Proof.Machine.execHashDjb2_32 s
  | .hash_djb2_64 => Sys2Proof.Machine.execHashDjb2_64 s
  | .hash_djb2_32_xor => Sys2Proof.Machine.execHashDjb2Xor_32 s
  | .hash_djb2_64_xor => Sys2Proof.Machine.execHashDjb2Xor_64 s
  | .hash_fnv1a_32 => Sys2Proof.Machine.execHashFnv1a_32 s
  | .hash_fnv1a_64 => Sys2Proof.Machine.execHashFnv1a_64 s
  | .hash_fnv1a_32_opt => Sys2Proof.Machine.execHashFnv1aOpt_32 s
  | .hash_fnv1a_64_opt => Sys2Proof.Machine.execHashFnv1aOpt_64 s
  | .hash_sdbm_32 => Sys2Proof.Machine.execHashSdbm_32 s
  | .hash_sdbm_64 => Sys2Proof.Machine.execHashSdbm_64 s

end Sys2Proof.Machine
end

