-- ==== Sys2Proof/Machine/Port.lean ====
section
/-!
DEFINITION. The register port's writes (R20 to R27) and the host's turn (R76, R77), on the active instance.
-/

namespace Sys2Proof.Machine

/-- `RegWrite(0, v)`: `SRC`, while `BUSY = 0` (R22, R211). -/
def writeSrc (aw : Nat) (v : Word) (e : Instance) : Instance :=
  if e.busy then e else { e with src := lowBits aw v }

/-- `RegWrite(1, v)`: `LEN`, while `BUSY = 0` (R23, R211). -/
def writeLen (aw : Nat) (v : Word) (e : Instance) : Instance :=
  if e.busy then e else { e with len := lowBits aw v }

/-- `RegWrite(2, v)`: the command `v` (R24, R90 to R92). Decoding is the same whatever the state; what an
illegal or a legal command does while `BUSY = 1`, nothing, is said where it is executed. -/
def writeCmd (v : Word) (s : State) : Host.Outcome State Fault Refusal :=
  match decode v with
  | .operation i => exec i s
  | .illegalZeroField => .next (illegalCommand s)
  | .illegalFunc => .next (illegalCommand s)

/-- `RegWrite(i, v)` on the active instance (R21): writes to `STATUS`, `DIGEST` and the reserved indices
change nothing. -/
def regWrite (i : RegIndex) (v : Word) (s : State) : Host.Outcome State Fault Refusal :=
  match i.toNat with
  | 0 => .next (s.setInst (writeSrc s.cfg.aw v s.inst))
  | 1 => .next (s.setInst (writeLen s.cfg.aw v s.inst))
  | 2 => writeCmd v s
  | _ => .next s

/-- The host of the active instance performs the line `l`, with `rest` to follow (R76). `WAIT` reads
`STATUS` once and stays the next line until the value read has bit 1 set (R77). -/
def hostLine (l : HostLine) (rest : List HostLine) (s : State) : Host.Outcome State Fault Refusal :=
  match l with
  | .wr i v => regWrite i v (s.setInst (s.inst.setTodo rest))
  | .rd i => .next (s.setInst (regRead i (s.inst.setTodo rest)))
  | .wait =>
    if statusDone (regValue 3 s.inst) then .next (s.setInst (regRead 3 (s.inst.setTodo rest)))
    else .next (s.setInst (regRead 3 s.inst))

/-- The host's turn on the active instance; a host with no line left does nothing. -/
def hostStep (s : State) : Host.Outcome State Fault Refusal :=
  match s.inst.todo with
  | [] => .next s
  | l :: rest => hostLine l rest s

end Sys2Proof.Machine
end

