-- ==== Sys2Proof/Machine/Schedule.lean ====
section
/-!
DEFINITION. One turn of one agent (R20), and the order of moves when no turn is listed (R99).
-/

namespace Sys2Proof.Machine

/-- The agent named by a turn moves. A turn that names no instance, or a byte outside the source space, is
no event of the spec (log 10). -/
def takeTurn (t : Turn) (s : State) : Host.Outcome State Fault Refusal :=
  if Turn.wf s.cfg.aw s.insts.length t then
    match t with
    | .host k => hostStep (s.setActive k)
    | .engine k => engineStep (s.setActive k)
    | .reset => .next (resetEvent s)
    | .memWrite a b => .next (s.setMem (Memory.write s.mem a b))
  else .fault .illFormedTurn

/-- The first instance, counted from `k`, that has `p`. -/
def firstWith (p : Instance → Bool) (k : Nat) : List Instance → Option Nat
  | [] => none
  | e :: rest => if p e then some k else firstWith p (k + 1) rest

/-- The move made when no turn is listed. DESIGN CHOICE (log 5): a busy engine agent first, so that every
accepted command ends (R99), then a host that has a line left, else nothing, as an idle block executes
nothing by itself (R201). -/
def defaultMove (s : State) : Host.Outcome State Fault Refusal :=
  match firstWith Instance.busy 0 s.insts with
  | some k => engineStep (s.setActive k)
  | none =>
    match firstWith (fun e => !e.todo.isEmpty) 0 s.insts with
    | some k => hostStep (s.setActive k)
    | none => .next s

end Sys2Proof.Machine
end

