-- ==== Sys2Proof/Machine/Step.lean ====
section
/-!
DEFINITION. One step of the machine: one atomic event of one agent (R20).
-/

namespace Sys2Proof.Machine

/-- The next listed turn is taken; with none listed, the default move. -/
def step (s : State) : Host.Outcome State Fault Refusal :=
  match s.turns with
  | t :: ts => takeTurn t (s.setTurns ts)
  | [] => defaultMove s

/-- `s` with the command word `w` (bits above `nbits` zero) as the next transaction of the active instance's
host, `WR CMD, w`, and that host's turn next (log 8). The block fetches no instructions (R30, R66): a
command arrives as a write of `CMD`. -/
def State.withFetchWord (s : State) (nbits w : Nat) : State :=
  (s.setInst (s.inst.setTodo (.wr 2 (BitVec.ofNat 64 (w % 2 ^ nbits)) :: s.inst.todo))).setTurns
    (.host s.active :: s.turns)

end Sys2Proof.Machine
end

