-- ==== Sys2Proof/Safety.lean ====
section
/-!
DEFINITION. What a safe run is, in the terms the claims use: the invariant of the machine, when a command is handled,
what an operation rule says, and what may be seen from outside.
-/

namespace Sys2Proof.Machine

/-- The bytes the memory answered, in the order of the reads. -/
def answeredBytes (rs : List MemRead) : List Byte := rs.filterMap MemRead.answer

/-- The reads of consecutive addresses from `a` on, answered with the bytes `m` (R55, R61). -/
def readsFrom (a : Nat) : List Byte → List MemRead
  | [] => []
  | b :: m => { addr := a, answer := some b } :: readsFrom (a + 1) m

/-- The registers of `AW` bits hold `AW`-bit values (R22, R23, R29) and `STATUS` is one of the five words
of R26. -/
abbrev Instance.regsOk (aw : Nat) (e : Instance) : Prop :=
  e.src.toNat < 2 ^ aw ∧ e.len.toNat < 2 ^ aw ∧ e.idx.toNat < 2 ^ aw ∧ e.status ∈ legalStatus

/-- A running command of operation `i`: its reference is valid (R91), `IDX` has not passed `LEN` (R29),
the reads made are those of bytes `0` to `IDX - 1` in order, each once, each answered with a byte (R55,
R61), and `ACC` is the fold of the bytes as answered (R63, R96). -/
abbrev Instance.running (aw : Nat) (i : Instr) (e : Instance) : Prop :=
  invalidReference aw e.src e.len = false ∧ e.idx.toNat ≤ e.len.toNat ∧ e.reads.length = e.idx.toNat ∧
    e.reads = readsFrom e.src.toNat (answeredBytes e.reads) ∧ e.acc = hashWord i (answeredBytes e.reads)

/-- The invariant of one instance. While `BUSY = 1`, `FUNC` is an operation number (R31) and the command is
running as it says; while `BUSY = 0` nothing is said of the hidden registers (R36, U3). -/
abbrev Instance.Inv (aw : Nat) (e : Instance) : Prop :=
  e.regsOk aw ∧ (e.busy = true → ∃ i ∈ opOfFunc e.func, e.running aw i)

/-- The invariant of the machine. -/
abbrev State.Inv (s : State) : Prop :=
  s.cfg.wf = true ∧ s.active < s.insts.length ∧ Memory.wf s.mem = true ∧ Memory.inSpace s.cfg.aw s.mem = true ∧
    ∀ e ∈ s.insts, e.Inv s.cfg.aw

/-- No listed turn is ill formed. -/
abbrev State.turnsOk (s : State) : Prop := ∀ t ∈ s.turns, Turn.wf s.cfg.aw s.insts.length t = true

/-- The message reference is neither absent nor invalid: the message is empty, or it starts above address 0
and does not pass the top of the source space (R58, R59). -/
abbrev validReference (aw : Nat) (src len : Word) : Prop :=
  len = 0 ∨ (src ≠ 0 ∧ src.toNat + len.toNat ≤ 2 ^ aw)

/-- The active instance is there, holds a legal `STATUS`, and runs no command: a command written now is
handled (R90 to R92). -/
abbrev State.ready (s : State) : Prop :=
  s.active < s.insts.length ∧ s.inst.status ∈ legalStatus ∧ s.inst.busy = false

/-- The active instance runs operation number `f` on a valid reference and has bytes of the message left
(R93, R94). -/
abbrev State.atByte (s : State) (f : FuncNo) : Prop :=
  s.active < s.insts.length ∧ s.inst.status = 0x01 ∧ s.inst.func = f ∧
    validReference s.cfg.aw s.inst.src s.inst.len ∧ s.inst.idx.toNat < s.inst.len.toNat

/-- What every operation rule of files 41 to 45 says of its operation `i`: its encoding, its number `f` and
command word `word`, the constant `init` the accumulator register is loaded with at acceptance, the new
accumulator register `fold acc r` after the byte `r`, the two places where it can raise `InvalidInput`, and
what its completion step writes. The field `reads` in it is the model's list of reads (log 7). -/
def OperationContract (i : Instr) (f : FuncNo) (word init : Word) (fold : Word → Byte → Word) : Prop :=
  decode word = .operation i ∧ encode i = word ∧ funcOf i = f ∧
  (∀ s : State, s.ready → validReference s.cfg.aw s.inst.src s.inst.len →
    exec i s = .next (s.setInst
      { s.inst with func := f, acc := init, idx := 0, status := 0x01, reads := [] })) ∧
  (∀ s : State, s.ready → ¬ validReference s.cfg.aw s.inst.src s.inst.len →
    exec i s = .next (s.setInst { s.inst with status := 0x16 })) ∧
  (∀ (s : State) (r : Byte), s.atByte f →
    memAnswer s.cfg s.mem (s.inst.src.toNat + s.inst.idx.toNat) = some r →
    engineStep s = .next (s.setInst
      { s.inst with
        acc := fold s.inst.acc r
        idx := s.inst.idx + 1
        reads := s.inst.reads ++ [{ addr := s.inst.src.toNat + s.inst.idx.toNat, answer := some r }] })) ∧
  (∀ s : State, s.atByte f →
    memAnswer s.cfg s.mem (s.inst.src.toNat + s.inst.idx.toNat) = none →
    engineStep s = .next (s.setInst
      { s.inst with
        status := 0x16
        reads := s.inst.reads ++ [{ addr := s.inst.src.toNat + s.inst.idx.toNat, answer := none }] })) ∧
  (∀ s : State, s.active < s.insts.length → s.inst.status = 0x01 → s.inst.func = f → s.inst.idx = s.inst.len →
    engineStep s = .next (s.setInst
      { s.inst with
        digest := if f.getLsbD 0 then s.inst.acc else (s.inst.acc.setWidth 32).setWidth 64
        status := 0x02 }))

/-- The DJB2 fold over the integers, before any reduction (R120, R121). -/
def djb2Unreduced (m : List Byte) : Nat := m.foldl (fun a b => a * 33 + b.toNat) 5381

/-- The SDBM fold over the integers, before any reduction (R160, R161). -/
def sdbmUnreduced (m : List Byte) : Nat := m.foldl (fun a b => a * 65599 + b.toNat) 0

/-- `m_0 * p^(n-1) + m_1 * p^(n-2) + ... + m_(n-1)`, the sum over the bytes in R122 and R162. -/
def weightedSum (p : Nat) : List Byte → Nat
  | [] => 0
  | b :: m => b.toNat * p ^ m.length + weightedSum p m

/-- The messages of the spec's worked examples and vectors (R10, 95_test_vectors.md section 2). -/
def msgHello : List Byte := [0x68, 0x65, 0x6C, 0x6C, 0x6F]

/-- `"hello world"` (95_test_vectors.md section 2). -/
def msgHelloWorld : List Byte := [0x68, 0x65, 0x6C, 0x6C, 0x6F, 0x20, 0x77, 0x6F, 0x72, 0x6C, 0x64]

/-- `n` steps of the machine, stopping at the first fault or refusal: `Host.Core.run` of `Sys2Proof.core`
(Laws/Step.lean, `runSteps_eq_run`). -/
def runSteps : Nat → State → Host.Outcome State Fault Refusal
  | 0, s => .next s
  | n + 1, s =>
    match step s with
    | .next t => runSteps n t
    | .fault r => .fault r
    | .refused r => .refused r

/-- `n` turns of one engine agent. -/
def engineTurns (k n : Nat) : List Turn := List.replicate n (.engine k)

/-- An instance with `ACC`, `IDX` and `FUNC` blotted out while `BUSY = 0` (R36, U3). -/
def Instance.hideIdle (e : Instance) : Instance :=
  if e.busy then e else { e with acc := 0, idx := 0, func := 0 }

/-- The state with the hidden registers of idle instances blotted out. Two states with the same result
look the same from outside. -/
def State.hideIdle (s : State) : State := { s with insts := s.insts.map Instance.hideIdle }

end Sys2Proof.Machine
end

