-- ==== Sys2Proof/Certificates/Slice0/Obligations.lean ====
section
/-!
DEFINITION. The statements for the provers. Each docstring says which rule of spec/ it formalises.

The lists `turns` (log 5), `todo` and `seen` (log 6) and `reads` (log 7) are the model's own data: where a statement
speaks of them, it cites no rule for what it says of them.

A statement about a free value (`Config.freeAcc`, `freeIdx`, `freeFunc`) holds for every value of it; none rests
on the zeros that `State.reset` holds in `ACC`, `IDX` and `FUNC` (log 1).
-/

open Sys2Proof Sys2Proof.Machine

/-! ### Encoding -/

/-- R72: the ten rows, and that every bit of a command word is fixed: no other word names the operation. -/
def Obligations.CommandTableRows : Prop :=
  (∀ row ∈ ([
      (0, 0, 0, 0x0000000000000000, .hash_djb2_32, 32),
      (1, 0, 1, 0x0000000000000001, .hash_djb2_64, 64),
      (2, 1, 0, 0x0000000000000002, .hash_djb2_32_xor, 32),
      (3, 1, 1, 0x0000000000000003, .hash_djb2_64_xor, 64),
      (4, 2, 0, 0x0000000000000004, .hash_fnv1a_32, 32),
      (5, 2, 1, 0x0000000000000005, .hash_fnv1a_64, 64),
      (6, 3, 0, 0x0000000000000006, .hash_fnv1a_32_opt, 32),
      (7, 3, 1, 0x0000000000000007, .hash_fnv1a_64_opt, 64),
      (8, 4, 0, 0x0000000000000008, .hash_sdbm_32, 32),
      (9, 4, 1, 0x0000000000000009, .hash_sdbm_64, 64)] :
        List (FuncNo × BitVec 3 × BitVec 1 × Word × Instr × Nat)),
    let (f, alg, width, word, i, w) := row
    decode word = .operation i ∧ encode i = word ∧ funcOf i = f ∧ algField i = alg ∧ widthField i = width ∧
      widthOf f = w) ∧
  (∀ (v : Word) (i : Instr), decode v = .operation i → v = encode i)

/-- R73: decoding by the fields of the word, over the integers, in the order of the rule. -/
def Obligations.DecodeIsTotalByFields : Prop :=
  ∀ v : Word,
    (v.toNat / 16 ≠ 0 → decode v = .illegalZeroField) ∧
    (v.toNat / 16 = 0 → 10 ≤ v.toNat % 16 → decode v = .illegalFunc) ∧
    (v.toNat / 16 = 0 → v.toNat % 16 < 10 → ∃ i, decode v = .operation i ∧ (funcOf i).toNat = v.toNat % 16)

/-- R74: a word is illegal exactly when it is none of the ten, which are ten different words, so that
`2^64 - 10` words are illegal; an illegal command written while `BUSY = 0` raises `IllegalCmd`, reads no memory
and computes nothing. -/
def Obligations.ReservedCommandWordsAreIllegal : Prop :=
  (∀ v : Word, (∀ i, decode v ≠ .operation i) ↔
    (10 ≤ (v.extractLsb' 0 4).toNat ∨ v.extractLsb' 4 60 ≠ (0 : BitVec 60))) ∧
  (∀ v : Word, (∀ i, decode v ≠ .operation i) ↔ ∀ i, v ≠ encode i) ∧
  (∀ i j : Instr, encode i = encode j → i = j) ∧
  (∀ (v : Word) (s : State), s.ready → (∀ i, decode v ≠ .operation i) →
    regWrite 2 v s = .next (s.setInst { s.inst with status := 0x26 }))

/-- The step runs the decoded command: a state in which the next turn is that of instance `k`'s host, and that
host's next line is a write of `v` to `CMD`, steps to what `exec` of the decoded operation answers on the state
with turn and line taken off and `k` active. `State.withFetchWord` is such a state. -/
def Obligations.StepRunsTheCommandWritten : Prop :=
  (∀ (s : State) (k : Nat) (ts : List Turn) (v : Word) (rest : List HostLine) (e : Instance) (i : Instr),
    s.turns = .host k :: ts → s.insts[k]? = some e → e.todo = .wr 2 v :: rest → decode v = .operation i →
    step s = exec i { s with turns := ts, active := k, insts := s.insts.set k { e with todo := rest } }) ∧
  (∀ (s : State) (nbits w : Nat) (i : Instr), s.active < s.insts.length → w % 2 ^ nbits < 2 ^ 64 →
    decodeTableWord nbits w = some i → step (s.withFetchWord nbits w) = exec i s)

/-! ### The ten operations -/

/-- R120: `hash_djb2_32`. -/
def Obligations.HashDjb2_32Rule : Prop :=
  OperationContract .hash_djb2_32 0 0x0000000000000000 5381
    (fun acc r => ((acc.setWidth 32 <<< 5) + acc.setWidth 32 + r.setWidth 32).setWidth 64) ∧
  digestDjb2_32 [] = 5381 ∧
  (∀ m : List Byte, m.length ≤ 3 → (digestDjb2_32 m).toNat = djb2Unreduced m) ∧
  (∀ m : List Byte, m.length = 4 → 2 ^ 32 ≤ djb2Unreduced m) ∧
  digestDjb2_32 [0x00] = 177573 ∧
  stepDjb2_32 0xFFFFFFFF 0x61 = 0x00000040 ∧
  stepDjb2_32 0x07C1F07C 0x00 = 0xFFFFFFFC ∧ stepDjb2_32 0x07C1F07C 0x61 = 0x0000005D ∧
  0x0B887ABE * 33 + 108 = 0x17C97D2EA ∧ 0x7C97D2EA * 33 + 111 = 0x100F923099 ∧
  (List.range 6).map (fun n => digestDjb2_32 (msgHello.take n)) =
    [0x00001505, 0x0002B60D, 0x00597812, 0x0B887ABE, 0x7C97D2EA, 0x0F923099]

/-- R121: `hash_djb2_64`. -/
def Obligations.HashDjb2_64Rule : Prop :=
  OperationContract .hash_djb2_64 1 0x0000000000000001 5381 (fun acc r => (acc <<< 5) + acc + r.setWidth 64) ∧
  digestDjb2_64 [] = 5381 ∧
  (∀ m : List Byte, m.length ≤ 10 → (digestDjb2_64 m).toNat = djb2Unreduced m) ∧
  (∀ m : List Byte, m.length = 11 → 2 ^ 64 ≤ djb2Unreduced m) ∧
  digestDjb2_64 msgHelloWorld = 0xC0943FD43551C8C1 ∧
  stepDjb2_64 0xFFFFFFFFFFFFFFFF 0x61 = 0x0000000000000040 ∧
  (∀ m : List Byte, trunc32 (digestDjb2_64 m) = digestDjb2_32 m) ∧
  (List.range 6).map (fun n => digestDjb2_64 (msgHello.take n)) =
    [0x1505, 0x2B60D, 0x597812, 0xB887ABE, 0x17C97D2EA, 0x310F923099]

/-- R130: `hash_djb2_32_xor`. -/
def Obligations.HashDjb2Xor_32Rule : Prop :=
  OperationContract .hash_djb2_32_xor 2 0x0000000000000002 5381
    (fun acc r => (((acc.setWidth 32 <<< 5) + acc.setWidth 32) ^^^ r.setWidth 32).setWidth 64) ∧
  digestDjb2Xor_32 [] = 5381 ∧
  (∀ (acc : Word32) (r : Byte), stepDjb2Xor_32 acc (zextByte32 r) >>> 8 = ((acc <<< 5) + acc) >>> 8) ∧
  stepDjb2Xor_32 0xFFFFFFFF 0x61 = 0xFFFFFFBE ∧ stepDjb2_32 0xFFFFFFFF 0x61 = 0x00000040 ∧
  (∀ acc : Word32, stepDjb2Xor_32 acc 0 = stepDjb2_32 acc 0) ∧
  digestDjb2Xor_32 [0x00] = 177573 ∧ digestDjb2_32 [0x00] = 177573 ∧
  xorW (shlW (1 : Word32) 5) (addW 1 0x61) = 0x42 ∧ addW (shlW (1 : Word32) 5) (xorW 1 0x61) = 0x80 ∧
  stepDjb2Xor_32 1 0x61 = 0x40 ∧
  5381 * 33 = 0x2B5A5 ∧ xorW (0x2B5A5 : Word32) 0x68 = 0x2B5CD ∧
  (List.range 6).map (fun n => digestDjb2Xor_32 (msgHello.take n)) =
    [0x00001505, 0x0002B5CD, 0x00596F08, 0x0B875064, 0x7C715C88, 0x0A9CEDE7]

/-- R131: `hash_djb2_64_xor`. -/
def Obligations.HashDjb2Xor_64Rule : Prop :=
  OperationContract .hash_djb2_64_xor 3 0x0000000000000003 5381
    (fun acc r => ((acc <<< 5) + acc) ^^^ r.setWidth 64) ∧
  digestDjb2Xor_64 [] = 5381 ∧
  stepDjb2Xor_64 0xFFFFFFFFFFFFFFFF 0x61 = 0xFFFFFFFFFFFFFFBE ∧
  (∀ m : List Byte, trunc32 (digestDjb2Xor_64 m) = digestDjb2Xor_32 m) ∧
  (List.range 6).map (fun n => digestDjb2Xor_64 (msgHello.take n)) =
    [0x1505, 0x2B5CD, 0x596F08, 0xB875064, 0x17C715C88, 0x310A9CEDE7]

/-- R140: `hash_fnv1a_32`. -/
def Obligations.HashFnv1a_32Rule : Prop :=
  OperationContract .hash_fnv1a_32 4 0x0000000000000004 2166136261
    (fun acc r => ((acc.setWidth 32 ^^^ r.setWidth 32) * (0x01000193 : Word32)).setWidth 64) ∧
  digestFnv1a_32 [] = 2166136261 ∧
  (∀ r : Byte, 2 ^ 32 ≤ (xorW initFnv1a_32 (zextByte32 r)).toNat * 16777619) ∧
  xorW (mulW (0x811C9DC5 : Word32) 0x01000193) 0x61 = 0x050C5D7E ∧ digestFnv1a_32 [0x61] = 0xE40C292C ∧
  stepFnv1a_32 0 0 = 0 ∧ stepFnv1a_32 0x80000000 0x80 = 0x0000C980 ∧
  xorW (0x811C9DC5 : Word32) 0x68 = 0x811C9DAD ∧ mulW (0x811C9DAD : Word32) 0x01000193 = 0xED0C3757 ∧
  (List.range 6).map (fun n => digestFnv1a_32 (msgHello.take n)) =
    [0x811C9DC5, 0xED0C3757, 0x5C3AE3B6, 0x0AB4B02E, 0x1C7177E6, 0x4F9F2CAB]

/-- R141: `hash_fnv1a_64`. -/
def Obligations.HashFnv1a_64Rule : Prop :=
  OperationContract .hash_fnv1a_64 5 0x0000000000000005 14695981039346656037
    (fun acc r => (acc ^^^ r.setWidth 64) * (0x00000100000001B3 : Word)) ∧
  digestFnv1a_64 [] = 14695981039346656037 ∧
  digestFnv1a_64 [0x61] = 0xAF63DC4C8601EC8C ∧ digestFnv1a_32 [0x61] = 0xE40C292C ∧
  trunc32 (digestFnv1a_64 [0x61]) ≠ digestFnv1a_32 [0x61] ∧
  stepFnv1a_64 0 0 = 0 ∧
  (List.range 6).map (fun n => digestFnv1a_64 (msgHello.take n)) =
    [0xCBF29CE484222325, 0xAF63E54C8601FBD7, 0x08BA5307B55EAF76, 0x334A30192FE3892E, 0x0A98FCCC5FA23B26,
      0xA430D84680AABD0B]

/-- R150: `hash_fnv1a_32_opt`. -/
def Obligations.HashFnv1aOpt_32Rule : Prop :=
  OperationContract .hash_fnv1a_32_opt 6 0x0000000000000006 2166136261
    (fun acc r =>
      let t := acc.setWidth 32 ^^^ r.setWidth 32
      (t + (t <<< 1) + (t <<< 4) + (t <<< 7) + (t <<< 8) + (t <<< 24)).setWidth 64) ∧
  digestFnv1aOpt_32 [] = 2166136261 ∧
  (∀ (t : Word32) (l : List Word32),
    l.Perm [t, shlW t 1, shlW t 4, shlW t 7, shlW t 8, shlW t 24] → l.foldl addW 0 = shiftSumFnv1aOpt_32 t) ∧
  xorW (0xFFFFFFFF : Word32) 0xFF = 0xFFFFFF00 ∧
  stepFnv1aOpt_32 0xFFFFFFFF 0xFF = 0xFFFE6D00 ∧ stepFnv1a_32 0xFFFFFFFF 0xFF = 0xFFFE6D00 ∧
  [1, 4, 7, 8, 24].map (fun k => shlW (0x811C9DAD : Word32) k) =
    [0x02393B5A, 0x11C9DAD0, 0x8E4ED680, 0x1C9DAD00, 0xAD000000] ∧
  shiftSumFnv1aOpt_32 0x811C9DAD = 0xED0C3757 ∧
  (List.range 6).map (fun n => digestFnv1aOpt_32 (msgHello.take n)) =
    [0x811C9DC5, 0xED0C3757, 0x5C3AE3B6, 0x0AB4B02E, 0x1C7177E6, 0x4F9F2CAB]

/-- R151: `hash_fnv1a_64_opt`. -/
def Obligations.HashFnv1aOpt_64Rule : Prop :=
  OperationContract .hash_fnv1a_64_opt 7 0x0000000000000007 14695981039346656037
    (fun acc r =>
      let t := acc ^^^ r.setWidth 64
      t + (t <<< 1) + (t <<< 4) + (t <<< 5) + (t <<< 7) + (t <<< 8) + (t <<< 40)) ∧
  digestFnv1aOpt_64 [] = 14695981039346656037 ∧
  (∀ (t : Word) (l : List Word),
    l.Perm [t, shlW t 1, shlW t 4, shlW t 5, shlW t 7, shlW t 8, shlW t 40] →
      l.foldl addW 0 = shiftSumFnv1aOpt_64 t) ∧
  stepFnv1aOpt_64 0xFFFFFFFFFFFFFFFF 0xFF = 0xFFFEFFFFFFFE4D00 ∧
  stepFnv1a_64 0xFFFFFFFFFFFFFFFF 0xFF = 0xFFFEFFFFFFFE4D00 ∧
  (List.range 6).map (fun n => digestFnv1aOpt_64 (msgHello.take n)) =
    [0xCBF29CE484222325, 0xAF63E54C8601FBD7, 0x08BA5307B55EAF76, 0x334A30192FE3892E, 0x0A98FCCC5FA23B26,
      0xA430D84680AABD0B]

/-- R160: `hash_sdbm_32`. -/
def Obligations.HashSdbm_32Rule : Prop :=
  OperationContract .hash_sdbm_32 8 0x0000000000000008 0
    (fun acc r => (r.setWidth 32 + (acc.setWidth 32 <<< 6) + (acc.setWidth 32 <<< 16) - acc.setWidth 32).setWidth 64) ∧
  digestSdbm_32 [] = 0 ∧
  stepSdbm_32 0 0 = 0 ∧ (∀ n : Nat, digestSdbm_32 (List.replicate n 0) = 0) ∧
  (∀ b : Byte, digestSdbm_32 [b] = zextByte32 b) ∧
  addW (addW (0x61 : Word32) (shlW 0xFFFFFFFF 6)) (shlW 0xFFFFFFFF 16) = 0xFFFF0021 ∧
  stepSdbm_32 0xFFFFFFFF 0x61 = 0xFFFF0022 ∧
  (∀ m : List Byte, m.length ≤ 2 → (digestSdbm_32 m).toNat = sdbmUnreduced m) ∧
  (∃ m : List Byte, m.length = 3 ∧ 2 ^ 32 ≤ sdbmUnreduced m) ∧
  stepSdbm_32 0x68 101 = 0x6819FD ∧
  (List.range 6).map (fun n => digestSdbm_32 (msgHello.take n)) =
    [0x00000000, 0x00000068, 0x006819FD, 0x339B65AF, 0x18ED067D, 0x28D19932]

/-- R161: `hash_sdbm_64`. -/
def Obligations.HashSdbm_64Rule : Prop :=
  OperationContract .hash_sdbm_64 9 0x0000000000000009 0
    (fun acc r => r.setWidth 64 + (acc <<< 6) + (acc <<< 16) - acc) ∧
  digestSdbm_64 [] = 0 ∧ (∀ n : Nat, digestSdbm_64 (List.replicate n 0) = 0) ∧
  stepSdbm_64 0xFFFFFFFFFFFFFFFF 0x61 = 0xFFFFFFFFFFFF0022 ∧
  (∀ m : List Byte, m.length ≤ 4 → (digestSdbm_64 m).toNat = sdbmUnreduced m) ∧
  (∃ m : List Byte, m.length = 5 ∧ 2 ^ 64 ≤ sdbmUnreduced m) ∧
  (∀ m : List Byte, trunc32 (digestSdbm_64 m) = digestSdbm_32 m) ∧
  (List.range 6).map (fun n => digestSdbm_64 (msgHello.take n)) =
    [0x0, 0x68, 0x6819FD, 0x68339B65AF, 0x00684D4018ED067D, 0x66EB1BB328D19932]

/-! ### Arithmetic laws -/

/-- R8, R100, R102, R104: each primitive is its exact integer value reduced modulo `2^W`, at every width;
subtraction wraps, with the rule's example; exclusive or with a byte leaves the bits from 8 up, and it does not
distribute over addition. -/
def Obligations.PrimitivesReduceModuloWidth : Prop :=
  (∀ (w : Nat) (a b : BitVec w), (addW a b).toNat = (a.toNat + b.toNat) % 2 ^ w) ∧
  (∀ (w : Nat) (a b : BitVec w), ((subW a b).toNat : Int) = ((a.toNat : Int) - b.toNat) % (2 ^ w : Nat)) ∧
  (∀ (w : Nat) (a b : BitVec w), a.toNat < b.toNat → (subW a b).toNat + b.toNat = a.toNat + 2 ^ w) ∧
  subW (0x00000005 : Word32) 0x00000007 = 0xFFFFFFFE ∧
  (∀ (w : Nat) (a b : BitVec w), (mulW a b).toNat = (a.toNat * b.toNat) % 2 ^ w) ∧
  (∀ (w : Nat) (a : BitVec w) (k : Nat), k < w → (shlW a k).toNat = (a.toNat * 2 ^ k) % 2 ^ w) ∧
  (∀ (w : Nat) (a b : BitVec w) (i : Nat), (xorW a b).getLsbD i = (a.getLsbD i != b.getLsbD i)) ∧
  (∀ (a : Word32) (b : Byte) (i : Nat), 8 ≤ i → (xorW a (zextByte32 b)).getLsbD i = a.getLsbD i) ∧
  (∀ (a : Word) (b : Byte) (i : Nat), 8 ≤ i → (xorW a (zextByte64 b)).getLsbD i = a.getLsbD i) ∧
  (∃ a b c : Word32, xorW a (addW b c) ≠ addW (xorW a b) (xorW a c)) ∧
  (∃ a b c : Word, xorW a (addW b c) ≠ addW (xorW a b) (xorW a c)) ∧
  (∀ b : Byte, (zextByte32 b).toNat = b.toNat ∧ (zextByte64 b).toNat = b.toNat) ∧
  (∀ a : Word32, (zext64 a).toNat = a.toNat) ∧
  (∀ v : Word, (trunc32 v).toNat = v.toNat % 2 ^ 32)

/-- R106: the truncation law for the five primitives and for three families, that it fails for FNV-1a, and when
the two digests of a pair are the same integer. -/
def Obligations.TruncationLaw : Prop :=
  (∀ a b : Word, trunc32 (addW a b) = addW (trunc32 a) (trunc32 b) ∧
    trunc32 (subW a b) = subW (trunc32 a) (trunc32 b) ∧ trunc32 (mulW a b) = mulW (trunc32 a) (trunc32 b) ∧
    trunc32 (xorW a b) = xorW (trunc32 a) (trunc32 b) ∧
    ∀ k < 32, trunc32 (shlW a k) = shlW (trunc32 a) k) ∧
  (∀ m : List Byte, digestDjb2_32 m = trunc32 (digestDjb2_64 m) ∧
    digestDjb2Xor_32 m = trunc32 (digestDjb2Xor_64 m) ∧ digestSdbm_32 m = trunc32 (digestSdbm_64 m)) ∧
  (∃ m : List Byte, digestFnv1a_32 m ≠ trunc32 (digestFnv1a_64 m)) ∧
  (∃ m : List Byte, digestFnv1aOpt_32 m ≠ trunc32 (digestFnv1aOpt_64 m)) ∧
  (∀ m : List Byte,
    ((digestDjb2_32 m).toNat = (digestDjb2_64 m).toNat ↔ (digestDjb2_64 m).toNat < 2 ^ 32) ∧
    ((digestDjb2Xor_32 m).toNat = (digestDjb2Xor_64 m).toNat ↔ (digestDjb2Xor_64 m).toNat < 2 ^ 32) ∧
    ((digestSdbm_32 m).toNat = (digestSdbm_64 m).toNat ↔ (digestSdbm_64 m).toNat < 2 ^ 32)) ∧
  (digestDjb2_32 [0x61, 0x61, 0x61]).toNat = (digestDjb2_64 [0x61, 0x61, 0x61]).toNat ∧
  (digestDjb2_32 [0x61, 0x61, 0x61, 0x61]).toNat ≠ (digestDjb2_64 [0x61, 0x61, 0x61, 0x61]).toNat

/-- R122: shift and add is multiplication by 33, and the closed form of the DJB2 digest. -/
def Obligations.Djb2MultiplicationForm : Prop :=
  (∀ acc : Word32, addW (shlW acc 5) acc = mulW acc 33) ∧ (∀ acc : Word, addW (shlW acc 5) acc = mulW acc 33) ∧
  (∀ acc b : Word32, stepDjb2_32 acc b = addW (mulW acc 33) b) ∧
  (∀ acc b : Word, stepDjb2_64 acc b = addW (mulW acc 33) b) ∧
  (∀ m : List Byte,
    (digestDjb2_32 m).toNat = (5381 * 33 ^ m.length + weightedSum 33 m) % 2 ^ 32 ∧
    (digestDjb2_64 m).toNat = (5381 * 33 ^ m.length + weightedSum 33 m) % 2 ^ 64)

/-- R132: the XOR step as a multiplication, and that it is the DJB2 step exactly when no bit is shared. -/
def Obligations.Djb2XorAgainstDjb2 : Prop :=
  (∀ acc b : Word32, stepDjb2Xor_32 acc b = xorW (mulW acc 33) b) ∧
  (∀ acc b : Word, stepDjb2Xor_64 acc b = xorW (mulW acc 33) b) ∧
  (∀ (acc : Word32) (r : Byte), stepDjb2Xor_32 acc (zextByte32 r) = stepDjb2_32 acc (zextByte32 r) ↔
    mulW acc 33 &&& zextByte32 r = 0) ∧
  (∀ (acc : Word) (r : Byte), stepDjb2Xor_64 acc (zextByte64 r) = stepDjb2_64 acc (zextByte64 r) ↔
    mulW acc 33 &&& zextByte64 r = 0)

/-- R152: the sums of shifts are the multiplications by the primes, step by step and digest by digest, for
messages of every length. -/
def Obligations.ShiftSumsEqualPrimeMultiplication : Prop :=
  2 ^ 0 + 2 ^ 1 + 2 ^ 4 + 2 ^ 7 + 2 ^ 8 + 2 ^ 24 = 16777619 ∧
  2 ^ 0 + 2 ^ 1 + 2 ^ 4 + 2 ^ 5 + 2 ^ 7 + 2 ^ 8 + 2 ^ 40 = 1099511628211 ∧
  (∀ t : Word32, shiftSumFnv1aOpt_32 t = mulW t 16777619) ∧
  (∀ t : Word, shiftSumFnv1aOpt_64 t = mulW t 1099511628211) ∧
  (∀ acc b : Word32, stepFnv1aOpt_32 acc b = stepFnv1a_32 acc b) ∧
  (∀ acc b : Word, stepFnv1aOpt_64 acc b = stepFnv1a_64 acc b) ∧
  (∀ m : List Byte, digestFnv1aOpt_32 m = digestFnv1a_32 m ∧ digestFnv1aOpt_64 m = digestFnv1a_64 m)

/-- R162: the SDBM step is multiplication by 65599, and the closed form of the digest. -/
def Obligations.SdbmMultiplicationForm : Prop :=
  (∀ acc : Word32, shlW acc 6 = mulW acc 64 ∧ shlW acc 16 = mulW acc 65536) ∧
  (∀ acc : Word, shlW acc 6 = mulW acc 64 ∧ shlW acc 16 = mulW acc 65536) ∧
  2 ^ 6 + 2 ^ 16 - 1 = 65599 ∧
  (∀ acc b : Word32, stepSdbm_32 acc b = addW (mulW acc 65599) b) ∧
  (∀ acc b : Word, stepSdbm_64 acc b = addW (mulW acc 65599) b) ∧
  (∀ m : List Byte, (digestSdbm_32 m).toNat = weightedSum 65599 m % 2 ^ 32 ∧
    (digestSdbm_64 m).toNat = weightedSum 65599 m % 2 ^ 64)

/-- R96: the digest register's value is `init` for the empty message, and one step of the operation for each
further byte; the step reads the low `W` bits of the accumulator. -/
def Obligations.DigestIsTheFold : Prop :=
  (∀ i : Instr, hashWord i [] = initAcc i) ∧
  (∀ (i : Instr) (m : List Byte) (r : Byte), hashWord i (m ++ [r]) = stepAcc i (hashWord i m) r) ∧
  (∀ (i : Instr) (m : List Byte), widthOf (funcOf i) = 32 → (hashWord i m).toNat < 2 ^ 32)

/-! ### Registers and the register port -/

/-- R35, R6: the values of the spec at reset: the registers a host can read, the parameters, one instance,
`BUSY`, `DONE`, `ERR`, `ERRCODE` clear. Nothing is said of `ACC`, `IDX`, `FUNC`. -/
def Obligations.ResetRegisterValues : Prop :=
  State.reset.cfg.aw = 64 ∧ State.reset.cfg.memFault = [] ∧ State.reset.insts.length = 1 ∧
  (∀ e ∈ State.reset.insts, e.src = 0 ∧ e.len = 0 ∧ e.digest = 0 ∧ statusBusy e.status = false ∧
    statusDone e.status = false ∧ statusErr e.status = false ∧ statusErrCode e.status = 0 ∧ e.status = 0 ∧
    ∀ i : RegIndex, regValue i e = 0)

/-- R22, R23: `SRC` and `LEN` store the low `AW` bits, zero-extended, while `BUSY = 0`; a write while
`BUSY = 1` changes nothing; they are read as stored; neither a command nor an engine step writes them. -/
def Obligations.SrcAndLenStoreLowBits : Prop :=
  ∀ (s : State) (v : Word), s.active < s.insts.length → s.cfg.wf = true →
    (s.inst.busy = false →
      (∃ x : Word, x.toNat = v.toNat % 2 ^ s.cfg.aw ∧
        regWrite 0 v s = .next (s.setInst { s.inst with src := x }) ∧
        regWrite 1 v s = .next (s.setInst { s.inst with len := x }))) ∧
    (s.inst.busy = true → regWrite 0 v s = .next s ∧ regWrite 1 v s = .next s) ∧
    regValue 0 s.inst = s.inst.src ∧ regValue 1 s.inst = s.inst.len ∧
    (∀ t, (regWrite 2 v s = .next t ∨ engineStep s = .next t) →
      t.inst.src = s.inst.src ∧ t.inst.len = s.inst.len)

/-- R24: `CMD` stores nothing and reads 0; a write is the command, handled while `BUSY = 0` and ignored while
`BUSY = 1`. -/
def Obligations.CommandRegisterIsAnEvent : Prop :=
  (∀ e : Instance, regValue 2 e = 0) ∧
  (∀ (s : State) (v : Word), s.inst.busy = true → regWrite 2 v s = .next s) ∧
  (∀ (s : State) (v : Word) (i : Instr), s.inst.busy = false → decode v = .operation i →
    regWrite 2 v s = exec i s) ∧
  (∀ (s : State) (v : Word), s.ready → (∀ i, decode v ≠ .operation i) →
    regWrite 2 v s = .next (s.setInst { s.inst with status := 0x26 }))

/-- D30 and the table of R21: reads of `STATUS`, `DIGEST` and the reserved indices, and ignored writes. -/
def Obligations.ReadOnlyAndReservedRegisters : Prop :=
  (∀ e : Instance, regValue 3 e = e.status ∧ regValue 4 e = e.digest ∧ regValue 5 e = 0 ∧ regValue 6 e = 0 ∧
    regValue 7 e = 0) ∧
  (∀ (s : State) (v : Word) (i : RegIndex), 3 ≤ i.toNat → regWrite i v s = .next s)

/-- R25: the fields of a legal `STATUS`; what the block's own rules leave of the reserved bits; and the only
events that write it. -/
def Obligations.StatusFieldsAndWriters : Prop :=
  (∀ w ∈ legalStatus, w.getLsbD 3 = false ∧ (w >>> 8) = 0 ∧ (w.extractLsb' 4 4).toNat ≤ 2 ∧
    w.toNat = (statusBusy w).toNat + 2 * (statusDone w).toNat + 4 * (statusErr w).toNat +
      16 * (statusErrCode w).toNat) ∧
  (∀ (s : State) (v : Word), regWrite 3 v s = .next s) ∧
  (∀ (s t : State) (k : Nat) (e e' : Instance), step s = .next t → s.insts[k]? = some e → t.insts[k]? = some e' →
    e'.status ≠ e.status →
      s.turns.head? = some .reset ∨
      (e.busy = false ∧ ∃ v rest, e.todo = .wr 2 v :: rest ∧ e'.todo = rest) ∨
      (e.busy = true ∧ (e.idx = e.len ∨ memAnswer s.cfg s.mem (byteAddress s.cfg.aw e.src e.idx) = none)))

/-- R26: every step keeps `STATUS` of every instance among the five words, which have the four combinations of
flags of the rule's table. -/
def Obligations.StatusTakesFiveValues : Prop :=
  (∀ e ∈ State.reset.insts, e.status ∈ legalStatus) ∧
  (∀ s t : State, (∀ e ∈ s.insts, e.status ∈ legalStatus) → step s = .next t →
    ∀ e ∈ t.insts, e.status ∈ legalStatus) ∧
  (∀ w ∈ legalStatus,
    (statusBusy w, statusDone w, statusErr w, statusErrCode w) ∈
      ([(false, false, false, 0), (true, false, false, 0), (false, true, false, 0), (false, true, true, 1),
        (false, true, true, 2)] : List (Bool × Bool × Bool × BitVec 4)) ∧
    (statusErrCode w ≠ 0 ↔ statusErr w = true) ∧ w ∈ [0x00, 0x01, 0x02, 0x16, 0x26])

/-- R27: `DIGEST` changes at a reset and at a completion step only, where it receives the accumulator's `W` bits
zero-extended, and always does; a write of it changes nothing. -/
def Obligations.DigestWrittenAtCompletionOnly : Prop :=
  (∀ (s t : State) (k : Nat) (e e' : Instance), step s = .next t → s.insts[k]? = some e → t.insts[k]? = some e' →
    e'.digest ≠ e.digest →
      s.turns.head? = some .reset ∨
      (e.busy = true ∧ e.idx = e.len ∧ e'.busy = false ∧ statusDone e'.status = true ∧
        e'.digest = if e.func.getLsbD 0 then e.acc else (e.acc.setWidth 32).setWidth 64)) ∧
  (∀ (s : State) (i : Instr), s.active < s.insts.length → s.inst.busy = true → opOfFunc s.inst.func = some i →
    s.inst.idx = s.inst.len → ∃ t, engineStep s = .next t ∧
      t.inst.digest = if s.inst.func.getLsbD 0 then s.inst.acc else (s.inst.acc.setWidth 32).setWidth 64) ∧
  (∀ (s : State) (v : Word), regWrite 4 v s = .next s)

/-- R28: in every state the invariant allows, the upper half of `ACC` is 0 while a 32-bit operation runs; an
accepted command starts from its own `init` whatever `ACC` held; no register shows `ACC`. -/
def Obligations.AccumulatorHiddenAndReloaded : Prop :=
  (∀ s : State, s.Inv → ∀ e ∈ s.insts, e.busy = true → e.func.getLsbD 0 = false → e.acc.toNat < 2 ^ 32) ∧
  (∀ (s t : State) (v a : Word) (i : Instr), s.ready → decode v = .operation i →
    validReference s.cfg.aw s.inst.src s.inst.len →
    regWrite 2 v (s.setInst { s.inst with acc := a }) = .next t →
    regWrite 2 v s = .next t ∧ t.inst.acc = initAcc i) ∧
  (∀ (e : Instance) (i : RegIndex) (a : Word), regValue i { e with acc := a } = regValue i e)

/-- R29: `IDX` counts the bytes consumed and does not pass `LEN`; it is set to 0 at acceptance, goes up by 1 at a
byte step and changes at no other time but reset; no register shows it. -/
def Obligations.IdxCountsBytesConsumed : Prop :=
  (∀ s : State, s.Inv → ∀ e ∈ s.insts, e.idx.toNat < 2 ^ s.cfg.aw ∧
    (e.busy = true → e.idx.toNat ≤ e.len.toNat ∧ e.idx.toNat = e.reads.length)) ∧
  (∀ (s t : State) (k : Nat) (e e' : Instance), s.Inv → step s = .next t → s.insts[k]? = some e →
    t.insts[k]? = some e' →
    (e.busy = false → e'.busy = true → e'.idx = 0) ∧
    (e'.idx ≠ e.idx →
      s.turns.head? = some .reset ∨
      (e.busy = false ∧ e'.busy = true ∧ e'.idx = 0) ∨
      (e.busy = true ∧ e'.busy = true ∧ e.idx.toNat < e.len.toNat ∧ e'.idx.toNat = e.idx.toNat + 1))) ∧
  (∀ (e : Instance) (i : RegIndex) (x : Word), regValue i { e with idx := x } = regValue i e)

/-- R211: while `BUSY = 1` every register write is dropped without a trace, and every read is served. -/
def Obligations.WritesWhileBusyAreDropped : Prop :=
  (∀ (s : State) (i : RegIndex) (v : Word), s.inst.busy = true → regWrite i v s = .next s) ∧
  (∀ (s : State) (k : Nat) (ts : List Turn) (e : Instance) (i : RegIndex) (v : Word) (rest : List HostLine),
    s.turns = .host k :: ts → s.insts[k]? = some e → e.busy = true →
    (e.todo = .wr i v :: rest →
      step s = .next { s with turns := ts, active := k, insts := s.insts.set k { e with todo := rest } }) ∧
    (e.todo = .rd i :: rest →
      step s = .next { s with
        turns := ts
        active := k
        insts := s.insts.set k
          { e with todo := rest, seen := e.seen ++ [{ index := i, value := regValue i e }] } }))

/-- R77: `WAIT` is `RD STATUS` again and again until bit 1 is read as 1, and `HASH` its five lines. -/
def Obligations.WaitAndHashLines : Prop :=
  (∀ (s : State) (k : Nat) (ts : List Turn) (e : Instance) (rest : List HostLine),
    s.turns = .host k :: ts → s.insts[k]? = some e → e.todo = .wait :: rest →
    step s = .next { s with
      turns := ts
      active := k
      insts := s.insts.set k
        { e with
          todo := if e.status.getLsbD 1 then rest else .wait :: rest
          seen := e.seen ++ [{ index := 3, value := e.status }] } }) ∧
  (∀ (f : Instr) (ptr len : Word),
    hashLines f ptr len = [.wr 0 ptr, .wr 1 len, .wr 2 (encode f), .wait, .rd 4])

/-! ### Commands -/

/-- R90, R172: an illegal command raises `IllegalCmd` whatever `SRC` and `LEN` hold, and writes nothing but
`STATUS`, to 0x26. -/
def Obligations.IllegalCommandRaisesIllegalCmd : Prop :=
  ∀ (s : State) (v : Word), s.ready → (decode v = .illegalZeroField ∨ decode v = .illegalFunc) →
    regWrite 2 v s = .next (s.setInst { s.inst with status := 0x26 }) ∧
    statusBusy 0x26 = false ∧ statusDone 0x26 = true ∧ statusErr 0x26 = true ∧ statusErrCode 0x26 = 2

/-- R91: a legal command on an absent or invalid reference, with a non-zero length, raises `InvalidInput` and
writes nothing but `STATUS`; with `LEN = 0` it never does. -/
def Obligations.InvalidReferenceRaisesInvalidInput : Prop :=
  ∀ (s : State) (v : Word) (i : Instr), s.ready → decode v = .operation i →
    (s.inst.len ≠ 0 → (s.inst.src = 0 ∨ s.inst.src.toNat + s.inst.len.toNat > 2 ^ s.cfg.aw) →
      regWrite 2 v s = .next (s.setInst { s.inst with status := 0x16 })) ∧
    (s.inst.len = 0 → ∃ t, regWrite 2 v s = .next t ∧ t.inst.status = 0x01)

/-- R92: acceptance of every one of the ten commands: `FUNC` is bits 3:0 of the word, `ACC` its `init`, `IDX` 0,
`STATUS` 0x01; nothing else of the block is written. From there, while `BUSY = 1`, the host cannot change `SRC` or
`LEN`. -/
def Obligations.CommandAcceptance : Prop :=
  ∀ (s : State) (v : Word) (i : Instr), s.ready → decode v = .operation i →
    validReference s.cfg.aw s.inst.src s.inst.len →
    regWrite 2 v s = .next (s.setInst
      { s.inst with func := v.extractLsb' 0 4, acc := initAcc i, idx := 0, status := 0x01, reads := [] }) ∧
    statusBusy 0x01 = true ∧ statusDone 0x01 = false ∧ statusErr 0x01 = false ∧ statusErrCode 0x01 = 0 ∧
    (∀ (t : State) (x : Word), t.inst.busy = true → regWrite 0 x t = .next t ∧ regWrite 1 x t = .next t)

/-- The frame of the ten commands, in every state: a command leaves memory, the parameters, the turns, every
other instance, and of its own instance `SRC`, `LEN`, `DIGEST`, the host's lines and what the host has seen, and
every bit of `STATUS` outside `BUSY`, `DONE`, `ERR`, `ERRCODE`. -/
def Obligations.CommandFrame : Prop :=
  ∀ (i : Instr) (s t : State), exec i s = .next t →
    (∀ a : Nat, Memory.read t.mem a = Memory.read s.mem a) ∧ t.mem = s.mem ∧ t.cfg = s.cfg ∧ t.turns = s.turns ∧
    t.fresh = s.fresh ∧ t.active = s.active ∧ t.insts.length = s.insts.length ∧
    (∀ k, k ≠ s.active → t.insts[k]? = s.insts[k]?) ∧
    t.inst.src = s.inst.src ∧ t.inst.len = s.inst.len ∧ t.inst.digest = s.inst.digest ∧
    t.inst.todo = s.inst.todo ∧ t.inst.seen = s.inst.seen ∧
    (t.inst.reads = s.inst.reads ∨ t.inst.reads = []) ∧
    (∀ n, n = 3 ∨ 8 ≤ n → t.inst.status.getLsbD n = s.inst.status.getLsbD n)

/-- R217: a write of `CMD` handled while `BUSY = 0`, legal or not, leaves `STATUS` at 0x01, 0x16 or 0x26 in the
same transaction, so the flags of an earlier command are gone. -/
def Obligations.NoStaleDone : Prop :=
  ∀ (s : State) (v : Word), s.ready → ∃ t, regWrite 2 v s = .next t ∧
    (t.inst.status = 0x01 ∨ t.inst.status = 0x16 ∨ t.inst.status = 0x26) ∧
    (t.inst.status = 0x01 ↔
      (∃ i, decode v = .operation i) ∧ validReference s.cfg.aw s.inst.src s.inst.len) ∧
    (t.inst.status = 0x26 ↔ ∀ i, decode v ≠ .operation i)

/-- R174: an error at the `CMD` write leaves every piece of state but `STATUS`; an error at a `fault` answer
leaves `SRC`, `LEN`, `DIGEST`, has made the reads of bytes 0 to `IDX`, and is followed by no read. -/
def Obligations.ErrorsArePrecise : Prop :=
  (∀ (s t : State) (v : Word), s.ready → regWrite 2 v s = .next t → statusErr t.inst.status = true →
    t = s.setInst { s.inst with status := t.inst.status }) ∧
  (∀ s t : State, s.Inv → s.inst.busy = true → engineStep s = .next t → statusErr t.inst.status = true →
    t.inst.src = s.inst.src ∧ t.inst.len = s.inst.len ∧ t.inst.digest = s.inst.digest ∧
    (∃ m : List Byte, m.length = s.inst.idx.toNat ∧
      t.inst.reads = readsFrom s.inst.src.toNat m ++
        [{ addr := s.inst.src.toNat + s.inst.idx.toNat, answer := none }]) ∧
    engineStep t = .next t)

/-- R178: after an error the block takes commands as before: the next accepted command clears `ERR` and
`ERRCODE`, the next error overwrites them, a write of `STATUS` does not touch them, a reset clears them. -/
def Obligations.RecoveryAfterAnError : Prop :=
  ∀ s : State, s.active < s.insts.length → (s.inst.status = 0x16 ∨ s.inst.status = 0x26) →
    (∀ v i, decode v = .operation i → validReference s.cfg.aw s.inst.src s.inst.len →
      ∃ t, regWrite 2 v s = .next t ∧ t.inst.status = 0x01) ∧
    (∀ v i, decode v = .operation i → ¬ validReference s.cfg.aw s.inst.src s.inst.len →
      ∃ t, regWrite 2 v s = .next t ∧ t.inst.status = 0x16) ∧
    (∀ v, (∀ i, decode v ≠ .operation i) → ∃ t, regWrite 2 v s = .next t ∧ t.inst.status = 0x26) ∧
    (∀ v, regWrite 3 v s = .next s) ∧ (resetEvent s).inst.status = 0x00

/-! ### Engine steps and runs -/

/-- R93: the byte step of every operation. -/
def Obligations.ByteStepFoldsOneByte : Prop :=
  ∀ (s : State) (f : FuncNo) (i : Instr) (r : Byte), s.atByte f → opOfFunc f = some i →
    memAnswer s.cfg s.mem (s.inst.src.toNat + s.inst.idx.toNat) = some r →
    engineStep s = .next (s.setInst
      { s.inst with
        acc := stepAcc i s.inst.acc r
        idx := s.inst.idx + 1
        reads := s.inst.reads ++ [{ addr := s.inst.src.toNat + s.inst.idx.toNat, answer := some r }] }) ∧
    (s.inst.idx + 1).toNat = s.inst.idx.toNat + 1

/-- R94: the fault step; with `MemFault` empty it never happens. -/
def Obligations.FaultStepRaisesInvalidInput : Prop :=
  (∀ (s : State) (f : FuncNo) (i : Instr), s.atByte f → opOfFunc f = some i →
    memAnswer s.cfg s.mem (s.inst.src.toNat + s.inst.idx.toNat) = none →
    engineStep s = .next (s.setInst
      { s.inst with
        status := 0x16
        reads := s.inst.reads ++ [{ addr := s.inst.src.toNat + s.inst.idx.toNat, answer := none }] })) ∧
  (∀ (c : Config) (m : Memory) (a : Nat), c.memFault = [] → memAnswer c m a ≠ none)

/-- R95: the completion step of every operation. With `LEN = 0` it is the first and only engine step of the command,
and `DIGEST` receives the operation's `init`. -/
def Obligations.CompletionStepWritesDigest : Prop :=
  (∀ (s : State) (i : Instr), s.active < s.insts.length → s.inst.status = 0x01 →
    opOfFunc s.inst.func = some i → s.inst.idx = s.inst.len →
    engineStep s = .next (s.setInst
      { s.inst with
        digest := if s.inst.func.getLsbD 0 then s.inst.acc else (s.inst.acc.setWidth 32).setWidth 64
        status := 0x02 }) ∧
    statusBusy 0x02 = false ∧ statusDone 0x02 = true ∧ statusErr 0x02 = false ∧ statusErrCode 0x02 = 0) ∧
  (∀ (s : State) (v : Word) (i : Instr), s.ready → decode v = .operation i → s.inst.len = 0 →
    ∃ t u, regWrite 2 v s = .next t ∧ engineStep t = .next u ∧ u.inst.status = 0x02 ∧ u.inst.digest = initAcc i ∧
      engineStep u = .next u)

/-- The frame of an engine step, in every state. -/
def Obligations.EngineStepFrame : Prop :=
  ∀ s t : State, engineStep s = .next t →
    (∀ a : Nat, Memory.read t.mem a = Memory.read s.mem a) ∧ t.mem = s.mem ∧ t.cfg = s.cfg ∧ t.turns = s.turns ∧
    t.fresh = s.fresh ∧ t.active = s.active ∧ t.insts.length = s.insts.length ∧
    (∀ k, k ≠ s.active → t.insts[k]? = s.insts[k]?) ∧
    t.inst.src = s.inst.src ∧ t.inst.len = s.inst.len ∧ t.inst.func = s.inst.func ∧
    t.inst.todo = s.inst.todo ∧ t.inst.seen = s.inst.seen ∧
    (∀ n, n = 3 ∨ 8 ≤ n → t.inst.status.getLsbD n = s.inst.status.getLsbD n) ∧
    (s.inst.busy = false → t = s)

/-- R97, the run theorem: a legal command written while `BUSY = 0` on a valid reference, whose bytes the memory
answers as `m`, and then `n` engine turns and one more. After the `j`-th of the `n` byte steps `ACC` is the
digest of the first `j` bytes and `IDX = j`; after the completion step `STATUS = 0x02`, `DIGEST` is the digest of
`m`, and the reads are those of the `n` bytes in order. -/
def Obligations.RunOfOneCommand : Prop :=
  ∀ (s : State) (v : Word) (i : Instr) (m : List Byte) (ts : List Turn) (rest : List HostLine),
    s.ready → decode v = .operation i → s.inst.len.toNat = m.length →
    validReference s.cfg.aw s.inst.src s.inst.len →
    (∀ (j : Nat) (h : j < m.length), memAnswer s.cfg s.mem (s.inst.src.toNat + j) = some m[j]) →
    s.turns = .host s.active :: (engineTurns s.active (m.length + 1) ++ ts) → s.inst.todo = .wr 2 v :: rest →
    (∀ j ≤ m.length, runSteps (1 + j) s =
      .next ({ s.setInst { s.inst with
          todo := rest
          func := v.extractLsb' 0 4
          acc := hashWord i (m.take j)
          idx := BitVec.ofNat 64 j
          status := 0x01
          reads := readsFrom s.inst.src.toNat (m.take j) } with
        turns := engineTurns s.active (m.length + 1 - j) ++ ts } : State)) ∧
    runSteps (1 + m.length + 1) s =
      .next ({ s.setInst { s.inst with
          todo := rest
          func := v.extractLsb' 0 4
          acc := hashWord i m
          idx := s.inst.len
          status := 0x02
          digest := hashWord i m
          reads := readsFrom s.inst.src.toNat m } with
        turns := ts } : State)

/-- A run that meets a memory fault (R94, R174): the memory answers the bytes `m` and then `fault`, before the end
of the message. After the bytes of `m` and one fault step `STATUS = 0x16`, `DIGEST` is untouched, and the read
that faulted is the last. -/
def Obligations.RunThatMeetsAFault : Prop :=
  ∀ (s : State) (v : Word) (i : Instr) (m : List Byte) (ts : List Turn) (rest : List HostLine),
    s.ready → decode v = .operation i → m.length < s.inst.len.toNat →
    validReference s.cfg.aw s.inst.src s.inst.len →
    (∀ (j : Nat) (h : j < m.length), memAnswer s.cfg s.mem (s.inst.src.toNat + j) = some m[j]) →
    memAnswer s.cfg s.mem (s.inst.src.toNat + m.length) = none →
    s.turns = .host s.active :: (engineTurns s.active (m.length + 1) ++ ts) → s.inst.todo = .wr 2 v :: rest →
    runSteps (1 + m.length + 1) s =
      .next ({ s.setInst { s.inst with
          todo := rest
          func := v.extractLsb' 0 4
          acc := hashWord i m
          idx := BitVec.ofNat 64 m.length
          status := 0x16
          reads := readsFrom s.inst.src.toNat m ++
            [{ addr := s.inst.src.toNat + m.length, answer := none }] } with
        turns := ts } : State)

/-- R99: while `BUSY = 1` a turn of the engine agent is always a step, and the command ends within as many of
them as bytes are left and one more. -/
def Obligations.CommandEndsWithinLenPlusOneSteps : Prop :=
  ∀ s : State, s.Inv → s.inst.busy = true →
    (∃ t, engineStep s = .next t ∧ t ≠ s) ∧
    (∀ ts : List Turn,
      s.turns = engineTurns s.active (s.inst.len.toNat - s.inst.idx.toNat + 1) ++ ts →
      ∃ t, runSteps (s.inst.len.toNat - s.inst.idx.toNat + 1) s = .next t ∧
        t.turns = ts ∧ t.inst.busy = false ∧ statusDone t.inst.status = true)

/-- The invariant holds at reset. -/
def Obligations.InvariantHoldsAtReset : Prop := State.reset.Inv ∧ State.reset.turnsOk

/-- Every step keeps the invariant: canonical memory inside the source space, registers of `AW` bits, a legal
`STATUS`, and for every running command a valid reference, `IDX` within `LEN`, reads in order, and an accumulator
that is the fold of the bytes as answered, under every interleaving with other agents' writes to memory. -/
def Obligations.EveryStepKeepsTheInvariant : Prop :=
  ∀ s t : State, s.Inv → step s = .next t → t.Inv

/-- In a state that meets the invariant and lists no ill-formed turn the machine does not stop. -/
def Obligations.StepNeverStops : Prop :=
  ∀ s : State, s.Inv → s.turnsOk → ∃ t, step s = .next t ∧ t.turnsOk

/-- R55: the reads of a command. Completed: exactly `LEN`, ascending, each once. Refused at acceptance: none. At a
fault answer for byte `i`: bytes 0 to `i`, none after. With `LEN = 0`: none. No command and no engine step writes
the source space. -/
def Obligations.ReadsOfACommand : Prop :=
  (∀ s t : State, s.Inv → s.inst.busy = true → engineStep s = .next t → t.inst.status = 0x02 →
    ∃ m : List Byte, m.length = s.inst.len.toNat ∧ t.inst.reads = readsFrom s.inst.src.toNat m) ∧
  (∀ (s t : State) (v : Word), s.ready → regWrite 2 v s = .next t → t.inst.status = 0x16 →
    t.inst.reads = s.inst.reads) ∧
  (∀ s t : State, s.Inv → s.inst.busy = true → engineStep s = .next t → t.inst.status = 0x16 →
    (∃ m : List Byte, m.length = s.inst.idx.toNat ∧ s.inst.idx.toNat < s.inst.len.toNat ∧
      t.inst.reads = readsFrom s.inst.src.toNat m ++
        [{ addr := s.inst.src.toNat + s.inst.idx.toNat, answer := none }]) ∧ engineStep t = .next t) ∧
  (∀ s t : State, s.Inv → s.inst.busy = true → s.inst.len = 0 → engineStep s = .next t →
    t.inst.reads = [] ∧ t.inst.status = 0x02) ∧
  (∀ (s t : State) (i : RegIndex) (v : Word), (regWrite i v s = .next t ∨ engineStep s = .next t) → t.mem = s.mem)

/-- R63: whatever other agents wrote meanwhile, a read is answered with what the memory holds when it is made, and
the digest of a completed command is the fold of the bytes as answered. -/
def Obligations.DigestIsFoldOfBytesAsAnswered : Prop :=
  (∀ s t : State, s.Inv → s.inst.busy = true → engineStep s = .next t → t.inst.busy = true →
    memAnswer s.cfg s.mem (s.inst.src.toNat + s.inst.idx.toNat) ≠ none ∧
    t.inst.reads = s.inst.reads ++
      [{ addr := s.inst.src.toNat + s.inst.idx.toNat
         answer := memAnswer s.cfg s.mem (s.inst.src.toNat + s.inst.idx.toNat) }]) ∧
  (∀ s t : State, s.Inv → s.inst.busy = true → engineStep s = .next t → t.inst.status = 0x02 →
    ∃ i, opOfFunc s.inst.func = some i ∧ t.inst.digest = hashWord i (answeredBytes t.inst.reads) ∧
      (answeredBytes t.inst.reads).length = s.inst.len.toNat)

/-- R65, R33: the source space changes at another agent's write only, and there at the byte written only. -/
def Obligations.OnlyOtherAgentsWriteMemory : Prop :=
  ∀ s t : State, step s = .next t → Memory.wf s.mem = true →
    (t.mem = s.mem ∨ ∃ a b, s.turns.head? = some (.memWrite a b)) ∧
    (∀ a b, s.turns.head? = some (.memWrite a b) →
      Memory.read t.mem a = b ∧ (∀ x, x ≠ a → Memory.read t.mem x = Memory.read s.mem x) ∧
      Memory.wf t.mem = true ∧ t.insts = s.insts)

/-- R52: the answer to a read is `fault` exactly when `MemFault` holds of the address, and else the byte held. -/
def Obligations.MemoryAnswers : Prop :=
  ∀ (c : Config) (m : Memory) (a : Nat),
    (memAnswer c m a = none ↔ ∃ r ∈ c.memFault, r.lo ≤ a ∧ a < r.lo + r.size) ∧
    (∀ b, memAnswer c m a = some b → b = Memory.read m a)

/-- R108, R59, R30: while a command has bytes left, the address read is `SRC + IDX` itself, within the message and
below `2^AW`, never address 0; and `IDX + 1` does not wrap. -/
def Obligations.AddressesNeverWrap : Prop :=
  ∀ s : State, s.Inv → ∀ e ∈ s.insts, e.busy = true → e.idx.toNat < e.len.toNat →
    byteAddress s.cfg.aw e.src e.idx = e.src.toNat + e.idx.toNat ∧
    0 < e.src.toNat + e.idx.toNat ∧ e.src.toNat + e.idx.toNat < 2 ^ s.cfg.aw ∧
    e.src.toNat + e.idx.toNat < e.src.toNat + e.len.toNat ∧
    (nextIdx s.cfg.aw e.idx).toNat = e.idx.toNat + 1

/-- R34: instances share no state. A turn of one instance's host or engine agent leaves every other instance as
it is, and does to its own instance what it does in any machine with the same memory and parameters. -/
def Obligations.InstancesShareNoState : Prop :=
  ∀ (s t : State) (k : Nat) (u : Turn), (u = .host k ∨ u = .engine k) → takeTurn u s = .next t →
    (∀ j, j ≠ k → t.insts[j]? = s.insts[j]?) ∧ t.mem = s.mem ∧ t.cfg = s.cfg ∧
    (∀ s' : State, s'.cfg = s.cfg → s'.mem = s.mem → s'.insts[k]? = s.insts[k]? →
      ∃ t', takeTurn u s' = .next t' ∧ t'.insts[k]? = t.insts[k]?)

/-- R36: the values of `ACC`, `IDX` and `FUNC` of an idle instance cannot be observed. Two states that differ in
nothing else step alike, to states that differ in nothing else, for ever: what hosts have seen is the same. -/
def Obligations.IdleHiddenStateIsUnobservable : Prop :=
  ∀ s s' : State, s.hideIdle = s'.hideIdle →
    (∀ t, step s = .next t → ∃ t', step s' = .next t' ∧ t.hideIdle = t'.hideIdle) ∧
    (∀ r, step s = .fault r → step s' = .fault r)

/-! ### Reset and idleness -/

/-- R200: a reset event, in any state, puts every instance into the state of R35, leaves memory and parameters,
and ends every running command: an engine turn after it changes nothing and makes no read. -/
def Obligations.ResetEventFromAnyState : Prop :=
  ∀ (s : State) (ts : List Turn), s.turns = .reset :: ts →
    ∃ t, step s = .next t ∧ t.turns = ts ∧ t.mem = s.mem ∧ t.cfg = s.cfg ∧ t.insts.length = s.insts.length ∧
      (∀ (k : Nat) (e e' : Instance), s.insts[k]? = some e → t.insts[k]? = some e' →
        e'.src = 0 ∧ e'.len = 0 ∧ e'.status = 0 ∧ e'.digest = 0 ∧ e'.reads = e.reads ∧ e'.todo = e.todo ∧
        e'.seen = e.seen ∧ takeTurn (.engine k) t = .next { t with active := k })

/-- R201: after reset the block executes nothing by itself: while every `STATUS` is 0, a step that makes one
non-zero is the host's write of `CMD`. -/
def Obligations.NothingRunsUntilACommandIsWritten : Prop :=
  ∀ (s t : State) (k : Nat) (e' : Instance), (∀ e ∈ s.insts, e.status = 0) → step s = .next t →
    t.insts[k]? = some e' → e'.status ≠ 0 →
    ∃ e v rest, s.insts[k]? = some e ∧ e.todo = .wr 2 v :: rest ∧ e'.todo = rest

/-- R185: an idle instance keeps `SRC`, `LEN`, `STATUS` and `DIGEST` until its host's next write or a reset. -/
def Obligations.IdleBlockKeepsItsRegisters : Prop :=
  ∀ (s t : State) (k : Nat) (e e' : Instance), step s = .next t → s.insts[k]? = some e → t.insts[k]? = some e' →
    e.busy = false →
    (e'.src = e.src ∧ e'.len = e.len ∧ e'.status = e.status ∧ e'.digest = e.digest) ∨
    s.turns.head? = some .reset ∨ (∃ i v rest, e.todo = .wr i v :: rest ∧ e'.todo = rest)

/-- R202: straight after reset, a legal command with nothing else written ends in two steps with `STATUS` 0x02 and
the operation's initial constant in `DIGEST`. -/
def Obligations.EmptyMessageStraightAfterReset : Prop :=
  (∀ i : Instr, ∃ t, runSteps 2 (State.reset.withFetchWord 64 (encode i).toNat) =
      .next t ∧ t.inst.status = 0x02 ∧ t.inst.digest = initAcc i ∧ t.inst.reads = []) ∧
  initAcc .hash_fnv1a_32 = 0x00000000811C9DC5
end

