-- ==== Sys2Proof/Laws/Arith.lean ====
section
/-!
SUPPORT. The arithmetic primitives as R8 writes them, over the integers modulo `2^W`.
-/

namespace Sys2Proof.Machine

section Primitives
variable {w : Nat} (a b : BitVec w)

theorem toNat_addW : (addW a b).toNat = (a.toNat + b.toNat) % 2 ^ w := BitVec.toNat_add a b

theorem toNat_subW : (subW a b).toNat = (2 ^ w - b.toNat + a.toNat) % 2 ^ w := BitVec.toNat_sub a b

theorem toNat_mulW : (mulW a b).toNat = a.toNat * b.toNat % 2 ^ w := BitVec.toNat_mul a b

theorem toNat_shlW (k : Nat) : (shlW a k).toNat = a.toNat * 2 ^ k % 2 ^ w := by
  simp [shlW, Nat.shiftLeft_eq]

theorem getLsbD_xorW (i : Nat) : (xorW a b).getLsbD i = ((a.getLsbD i) ^^ (b.getLsbD i)) := BitVec.getLsbD_xor

/-- `shl_W(a, k) = mul_W(a, 2^k)` (R103). -/
theorem shlW_eq_mulW (k : Nat) : shlW a k = mulW a (BitVec.ofNat w (2 ^ k)) := by
  apply BitVec.eq_of_toNat_eq
  rw [toNat_shlW, toNat_mulW, BitVec.toNat_ofNat, Nat.mul_mod_mod]

end Primitives

theorem toNat_zextByte32 (b : Byte) : (zextByte32 b).toNat = b.toNat := by
  have := b.isLt; simp [zextByte32]; omega

theorem toNat_zextByte64 (b : Byte) : (zextByte64 b).toNat = b.toNat := by
  have := b.isLt; simp [zextByte64]; omega

theorem toNat_zext64 (a : Word32) : (zext64 a).toNat = a.toNat := by
  have := a.isLt; simp [zext64]; omega

theorem toNat_trunc32 (v : Word) : (trunc32 v).toNat = v.toNat % 2 ^ 32 := by simp [trunc32]

/-- Cutting a zero-extended value back gives it again (R28). -/
@[simp] theorem trunc32_zext64 (a : Word32) : trunc32 (zext64 a) = a := by
  apply BitVec.eq_of_toNat_eq; rw [toNat_trunc32, toNat_zext64]; exact Nat.mod_eq_of_lt a.isLt

/-- The low half of a zero-extended byte is the byte zero-extended (R108). -/
@[simp] theorem trunc32_zextByte64 (b : Byte) : trunc32 (zextByte64 b) = zextByte32 b := by
  apply BitVec.eq_of_toNat_eq
  have := b.isLt
  rw [toNat_trunc32, toNat_zextByte64, toNat_zextByte32]; omega

end Sys2Proof.Machine
end

