-- ==== Sys2Proof/Laws/State.lean ====
section
/-!
SUPPORT. One lemma per field per update of `State` and of `Instance`, so that no later proof unfolds a record
update.
-/

namespace Sys2Proof.Machine

section StateUpdates
variable (s : State)

@[simp] theorem State.setInst_cfg (e : Instance) : (s.setInst e).cfg = s.cfg := rfl
@[simp] theorem State.setInst_insts (e : Instance) : (s.setInst e).insts = s.insts.set s.active e := rfl
@[simp] theorem State.setInst_active (e : Instance) : (s.setInst e).active = s.active := rfl
@[simp] theorem State.setInst_mem (e : Instance) : (s.setInst e).mem = s.mem := rfl
@[simp] theorem State.setInst_turns (e : Instance) : (s.setInst e).turns = s.turns := rfl
@[simp] theorem State.setInst_fresh (e : Instance) : (s.setInst e).fresh = s.fresh := rfl

@[simp] theorem State.setActive_cfg (k : Nat) : (s.setActive k).cfg = s.cfg := rfl
@[simp] theorem State.setActive_insts (k : Nat) : (s.setActive k).insts = s.insts := rfl
@[simp] theorem State.setActive_active (k : Nat) : (s.setActive k).active = k := rfl
@[simp] theorem State.setActive_mem (k : Nat) : (s.setActive k).mem = s.mem := rfl
@[simp] theorem State.setActive_turns (k : Nat) : (s.setActive k).turns = s.turns := rfl
@[simp] theorem State.setActive_fresh (k : Nat) : (s.setActive k).fresh = s.fresh := rfl

@[simp] theorem State.setTurns_cfg (ts : List Turn) : (s.setTurns ts).cfg = s.cfg := rfl
@[simp] theorem State.setTurns_insts (ts : List Turn) : (s.setTurns ts).insts = s.insts := rfl
@[simp] theorem State.setTurns_active (ts : List Turn) : (s.setTurns ts).active = s.active := rfl
@[simp] theorem State.setTurns_mem (ts : List Turn) : (s.setTurns ts).mem = s.mem := rfl
@[simp] theorem State.setTurns_turns (ts : List Turn) : (s.setTurns ts).turns = ts := rfl
@[simp] theorem State.setTurns_fresh (ts : List Turn) : (s.setTurns ts).fresh = s.fresh := rfl

@[simp] theorem State.setMem_cfg (m : Memory) : (s.setMem m).cfg = s.cfg := rfl
@[simp] theorem State.setMem_insts (m : Memory) : (s.setMem m).insts = s.insts := rfl
@[simp] theorem State.setMem_active (m : Memory) : (s.setMem m).active = s.active := rfl
@[simp] theorem State.setMem_mem (m : Memory) : (s.setMem m).mem = m := rfl
@[simp] theorem State.setMem_turns (m : Memory) : (s.setMem m).turns = s.turns := rfl
@[simp] theorem State.setMem_fresh (m : Memory) : (s.setMem m).fresh = s.fresh := rfl

@[simp] theorem State.setTurns_inst (ts : List Turn) : (s.setTurns ts).inst = s.inst := rfl
@[simp] theorem State.setMem_inst (m : Memory) : (s.setMem m).inst = s.inst := rfl

/-- The instance put in place is the one found there. -/
@[simp] theorem State.inst_setInst (h : s.active < s.insts.length) (e : Instance) : (s.setInst e).inst = e := by
  simp [State.inst, State.setInst, h]

@[simp] theorem State.setInst_setInst (e e' : Instance) : (s.setInst e).setInst e' = s.setInst e' := by
  simp [State.setInst]

/-- Putting the active instance back changes nothing. -/
@[simp] theorem State.setInst_inst : s.setInst s.inst = s := by
  cases s with
  | mk cfg insts active mem turns fresh =>
    by_cases h : active < insts.length
    · simp [State.setInst, State.inst, h]
    · simp only [State.setInst]
      rw [List.set_eq_of_length_le (by omega)]

@[simp] theorem State.setTurns_setInst (e : Instance) (ts : List Turn) :
    (s.setInst e).setTurns ts = (s.setTurns ts).setInst e := rfl

@[simp] theorem State.setTurns_setTurns (ts ts' : List Turn) : (s.setTurns ts).setTurns ts' = s.setTurns ts' := rfl

@[simp] theorem State.setTurns_turns_self : s.setTurns s.turns = s := rfl

@[simp] theorem State.setActive_active_self : s.setActive s.active = s := rfl

/-- The active instance is one of the instances. -/
theorem State.inst_mem (h : s.active < s.insts.length) : s.inst ∈ s.insts := by
  simp [State.inst, h]

theorem State.inst_eq_getElem (h : s.active < s.insts.length) : s.inst = s.insts[s.active] := by
  simp [State.inst, h]

/-- Replacing the active instance leaves every other one. -/
theorem State.setInst_other (e : Instance) (k : Nat) (h : k ≠ s.active) :
    (s.setInst e).insts[k]? = s.insts[k]? := by
  simp [State.setInst, Ne.symm h]

/-- A property of every instance is kept when the one put in place has it. -/
theorem State.forall_setInst (P : Instance → Prop) (h : ∀ e ∈ s.insts, P e) (e : Instance) (he : P e) :
    ∀ x ∈ (s.setInst e).insts, P x := by
  intro x hx
  rcases List.mem_or_eq_of_mem_set hx with hx | rfl
  · exact h x hx
  · exact he

end StateUpdates

section InstanceUpdates
variable (e : Instance)

@[simp] theorem setTodo_src (ls : List HostLine) : (e.setTodo ls).src = e.src := rfl
@[simp] theorem setTodo_len (ls : List HostLine) : (e.setTodo ls).len = e.len := rfl
@[simp] theorem setTodo_status (ls : List HostLine) : (e.setTodo ls).status = e.status := rfl
@[simp] theorem setTodo_digest (ls : List HostLine) : (e.setTodo ls).digest = e.digest := rfl
@[simp] theorem setTodo_acc (ls : List HostLine) : (e.setTodo ls).acc = e.acc := rfl
@[simp] theorem setTodo_idx (ls : List HostLine) : (e.setTodo ls).idx = e.idx := rfl
@[simp] theorem setTodo_func (ls : List HostLine) : (e.setTodo ls).func = e.func := rfl
@[simp] theorem setTodo_todo (ls : List HostLine) : (e.setTodo ls).todo = ls := rfl
@[simp] theorem setTodo_seen (ls : List HostLine) : (e.setTodo ls).seen = e.seen := rfl
@[simp] theorem setTodo_reads (ls : List HostLine) : (e.setTodo ls).reads = e.reads := rfl

@[simp] theorem regRead_src (i : RegIndex) : (regRead i e).src = e.src := rfl
@[simp] theorem regRead_len (i : RegIndex) : (regRead i e).len = e.len := rfl
@[simp] theorem regRead_status (i : RegIndex) : (regRead i e).status = e.status := rfl
@[simp] theorem regRead_digest (i : RegIndex) : (regRead i e).digest = e.digest := rfl
@[simp] theorem regRead_acc (i : RegIndex) : (regRead i e).acc = e.acc := rfl
@[simp] theorem regRead_idx (i : RegIndex) : (regRead i e).idx = e.idx := rfl
@[simp] theorem regRead_func (i : RegIndex) : (regRead i e).func = e.func := rfl
@[simp] theorem regRead_todo (i : RegIndex) : (regRead i e).todo = e.todo := rfl
@[simp] theorem regRead_seen (i : RegIndex) : (regRead i e).seen = e.seen ++ [{ index := i, value := regValue i e }] := rfl
@[simp] theorem regRead_reads (i : RegIndex) : (regRead i e).reads = e.reads := rfl

@[simp] theorem raiseInvalidInput_src : (raiseInvalidInput e).src = e.src := rfl
@[simp] theorem raiseInvalidInput_len : (raiseInvalidInput e).len = e.len := rfl
@[simp] theorem raiseInvalidInput_status : (raiseInvalidInput e).status = setErrCode codeInvalidInput (setErr true (setDone true (setBusy false e.status))) := rfl
@[simp] theorem raiseInvalidInput_digest : (raiseInvalidInput e).digest = e.digest := rfl
@[simp] theorem raiseInvalidInput_acc : (raiseInvalidInput e).acc = e.acc := rfl
@[simp] theorem raiseInvalidInput_idx : (raiseInvalidInput e).idx = e.idx := rfl
@[simp] theorem raiseInvalidInput_func : (raiseInvalidInput e).func = e.func := rfl
@[simp] theorem raiseInvalidInput_todo : (raiseInvalidInput e).todo = e.todo := rfl
@[simp] theorem raiseInvalidInput_seen : (raiseInvalidInput e).seen = e.seen := rfl
@[simp] theorem raiseInvalidInput_reads : (raiseInvalidInput e).reads = e.reads := rfl

@[simp] theorem raiseIllegalCmd_src : (raiseIllegalCmd e).src = e.src := rfl
@[simp] theorem raiseIllegalCmd_len : (raiseIllegalCmd e).len = e.len := rfl
@[simp] theorem raiseIllegalCmd_status : (raiseIllegalCmd e).status = setErrCode codeIllegalCmd (setErr true (setDone true e.status)) := rfl
@[simp] theorem raiseIllegalCmd_digest : (raiseIllegalCmd e).digest = e.digest := rfl
@[simp] theorem raiseIllegalCmd_acc : (raiseIllegalCmd e).acc = e.acc := rfl
@[simp] theorem raiseIllegalCmd_idx : (raiseIllegalCmd e).idx = e.idx := rfl
@[simp] theorem raiseIllegalCmd_func : (raiseIllegalCmd e).func = e.func := rfl
@[simp] theorem raiseIllegalCmd_todo : (raiseIllegalCmd e).todo = e.todo := rfl
@[simp] theorem raiseIllegalCmd_seen : (raiseIllegalCmd e).seen = e.seen := rfl
@[simp] theorem raiseIllegalCmd_reads : (raiseIllegalCmd e).reads = e.reads := rfl

@[simp] theorem accept_src (f : FuncNo) (init : Word) : (accept f init e).src = e.src := rfl
@[simp] theorem accept_len (f : FuncNo) (init : Word) : (accept f init e).len = e.len := rfl
@[simp] theorem accept_status (f : FuncNo) (init : Word) : (accept f init e).status = statusAccepted e.status := rfl
@[simp] theorem accept_digest (f : FuncNo) (init : Word) : (accept f init e).digest = e.digest := rfl
@[simp] theorem accept_acc (f : FuncNo) (init : Word) : (accept f init e).acc = init := rfl
@[simp] theorem accept_idx (f : FuncNo) (init : Word) : (accept f init e).idx = 0 := rfl
@[simp] theorem accept_func (f : FuncNo) (init : Word) : (accept f init e).func = f := rfl
@[simp] theorem accept_todo (f : FuncNo) (init : Word) : (accept f init e).todo = e.todo := rfl
@[simp] theorem accept_seen (f : FuncNo) (init : Word) : (accept f init e).seen = e.seen := rfl
@[simp] theorem accept_reads (f : FuncNo) (init : Word) : (accept f init e).reads = [] := rfl

@[simp] theorem recordRead_src (a : Nat) (ans : Option Byte) : (recordRead a ans e).src = e.src := rfl
@[simp] theorem recordRead_len (a : Nat) (ans : Option Byte) : (recordRead a ans e).len = e.len := rfl
@[simp] theorem recordRead_status (a : Nat) (ans : Option Byte) : (recordRead a ans e).status = e.status := rfl
@[simp] theorem recordRead_digest (a : Nat) (ans : Option Byte) : (recordRead a ans e).digest = e.digest := rfl
@[simp] theorem recordRead_acc (a : Nat) (ans : Option Byte) : (recordRead a ans e).acc = e.acc := rfl
@[simp] theorem recordRead_idx (a : Nat) (ans : Option Byte) : (recordRead a ans e).idx = e.idx := rfl
@[simp] theorem recordRead_func (a : Nat) (ans : Option Byte) : (recordRead a ans e).func = e.func := rfl
@[simp] theorem recordRead_todo (a : Nat) (ans : Option Byte) : (recordRead a ans e).todo = e.todo := rfl
@[simp] theorem recordRead_seen (a : Nat) (ans : Option Byte) : (recordRead a ans e).seen = e.seen := rfl
@[simp] theorem recordRead_reads (a : Nat) (ans : Option Byte) : (recordRead a ans e).reads = e.reads ++ [{ addr := a, answer := ans }] := rfl

@[simp] theorem byteStep_src (aw : Nat) (i : Instr) (r : Byte) : (byteStep aw i r e).src = e.src := rfl
@[simp] theorem byteStep_len (aw : Nat) (i : Instr) (r : Byte) : (byteStep aw i r e).len = e.len := rfl
@[simp] theorem byteStep_status (aw : Nat) (i : Instr) (r : Byte) : (byteStep aw i r e).status = e.status := rfl
@[simp] theorem byteStep_digest (aw : Nat) (i : Instr) (r : Byte) : (byteStep aw i r e).digest = e.digest := rfl
@[simp] theorem byteStep_acc (aw : Nat) (i : Instr) (r : Byte) : (byteStep aw i r e).acc = stepAcc i e.acc r := rfl
@[simp] theorem byteStep_idx (aw : Nat) (i : Instr) (r : Byte) : (byteStep aw i r e).idx = nextIdx aw e.idx := rfl
@[simp] theorem byteStep_func (aw : Nat) (i : Instr) (r : Byte) : (byteStep aw i r e).func = e.func := rfl
@[simp] theorem byteStep_todo (aw : Nat) (i : Instr) (r : Byte) : (byteStep aw i r e).todo = e.todo := rfl
@[simp] theorem byteStep_seen (aw : Nat) (i : Instr) (r : Byte) : (byteStep aw i r e).seen = e.seen := rfl
@[simp] theorem byteStep_reads (aw : Nat) (i : Instr) (r : Byte) : (byteStep aw i r e).reads = e.reads := rfl

@[simp] theorem completionStep_src : (completionStep e).src = e.src := rfl
@[simp] theorem completionStep_len : (completionStep e).len = e.len := rfl
@[simp] theorem completionStep_status : (completionStep e).status = statusCompleted e.status := rfl
@[simp] theorem completionStep_digest : (completionStep e).digest = digestValue e.func e.acc := rfl
@[simp] theorem completionStep_acc : (completionStep e).acc = e.acc := rfl
@[simp] theorem completionStep_idx : (completionStep e).idx = e.idx := rfl
@[simp] theorem completionStep_func : (completionStep e).func = e.func := rfl
@[simp] theorem completionStep_todo : (completionStep e).todo = e.todo := rfl
@[simp] theorem completionStep_seen : (completionStep e).seen = e.seen := rfl
@[simp] theorem completionStep_reads : (completionStep e).reads = e.reads := rfl

@[simp] theorem resetInstance_src (aw n : Nat) : (resetInstance aw n e).src = 0 := rfl
@[simp] theorem resetInstance_len (aw n : Nat) : (resetInstance aw n e).len = 0 := rfl
@[simp] theorem resetInstance_status (aw n : Nat) : (resetInstance aw n e).status = 0 := rfl
@[simp] theorem resetInstance_digest (aw n : Nat) : (resetInstance aw n e).digest = 0 := rfl
@[simp] theorem resetInstance_acc (aw n : Nat) : (resetInstance aw n e).acc = Config.freeAcc n := rfl
@[simp] theorem resetInstance_idx (aw n : Nat) : (resetInstance aw n e).idx = lowBits aw (Config.freeIdx n) := rfl
@[simp] theorem resetInstance_func (aw n : Nat) : (resetInstance aw n e).func = Config.freeFunc n := rfl
@[simp] theorem resetInstance_todo (aw n : Nat) : (resetInstance aw n e).todo = e.todo := rfl
@[simp] theorem resetInstance_seen (aw n : Nat) : (resetInstance aw n e).seen = e.seen := rfl
@[simp] theorem resetInstance_reads (aw n : Nat) : (resetInstance aw n e).reads = e.reads := rfl

@[simp] theorem setTodo_busy (ls : List HostLine) : (e.setTodo ls).busy = e.busy := rfl
@[simp] theorem setTodo_setTodo (ls ls' : List HostLine) : (e.setTodo ls).setTodo ls' = e.setTodo ls' := rfl
@[simp] theorem setTodo_todo_self : e.setTodo e.todo = e := rfl
@[simp] theorem regRead_busy (i : RegIndex) : (regRead i e).busy = e.busy := rfl
@[simp] theorem regValue_setTodo (i : RegIndex) (ls : List HostLine) : regValue i (e.setTodo ls) = regValue i e := rfl

end InstanceUpdates

end Sys2Proof.Machine
end

