-- ==== Sys2Proof/Laws/Commands.lean ====
section
/-!
SUPPORT. What a command can do: each arm of `exec` is the one shared operation on its own number and
constant, and that operation, like an illegal command, has three outcomes at most.
-/

namespace Sys2Proof.Machine

/-- Every arm is `commandOp` with the operation's number and its initial constant. -/
theorem exec_eq_commandOp (i : Instr) (s : State) : exec i s = commandOp (funcOf i) (initAcc i) s := by
  cases i <;> rfl

/-- Everything a legal command does (R24, R91, R92). -/
theorem commandOp_cases (f : FuncNo) (init : Word) (s : State) :
    (s.inst.busy = true ∧ commandOp f init s = .next s) ∨
    (s.inst.busy = false ∧ invalidReference s.cfg.aw s.inst.src s.inst.len = true ∧
      commandOp f init s = .next (s.setInst (raiseInvalidInput s.inst))) ∨
    (s.inst.busy = false ∧ invalidReference s.cfg.aw s.inst.src s.inst.len = false ∧
      commandOp f init s = .next (s.setInst (accept f init s.inst))) := by
  unfold commandOp
  cases hb : s.inst.busy
  · cases hv : invalidReference s.cfg.aw s.inst.src s.inst.len <;> simp
  · simp

/-- Everything a write of `CMD` does (R24, R90, R91, R92). -/
theorem writeCmd_cases (v : Word) (s : State) :
    (∃ i, decode v = .operation i ∧ writeCmd v s = commandOp (funcOf i) (initAcc i) s) ∨
    ((∀ i, decode v ≠ .operation i) ∧ writeCmd v s = .next (illegalCommand s)) := by
  unfold writeCmd
  cases h : decode v with
  | operation i => exact .inl ⟨i, rfl, exec_eq_commandOp i s⟩
  | illegalZeroField => exact .inr ⟨by simp, rfl⟩
  | illegalFunc => exact .inr ⟨by simp, rfl⟩

/-- A write to the port of a busy instance changes nothing, whatever it writes (R211). -/
theorem regWrite_busy (i : RegIndex) (v : Word) (s : State) (hb : s.inst.busy = true) : regWrite i v s = .next s := by
  unfold regWrite
  split
  · simp [writeSrc, hb]
  · simp [writeLen, hb]
  · rcases writeCmd_cases v s with ⟨j, -, h⟩ | ⟨-, h⟩
    · simp [h, commandOp, hb]
    · simp [h, illegalCommand, hb]
  · rfl

/-- Everything a write to the port of an idle instance does: one of the five cases of R21 and R90 to R92. -/
theorem regWrite_idle (i : RegIndex) (v : Word) (s : State) (hb : s.inst.busy = false) :
    (i = 0 ∧ regWrite i v s = .next (s.setInst { s.inst with src := lowBits s.cfg.aw v })) ∨
    (i = 1 ∧ regWrite i v s = .next (s.setInst { s.inst with len := lowBits s.cfg.aw v })) ∨
    (i = 2 ∧ (∀ j, decode v ≠ .operation j) ∧ regWrite i v s = .next (s.setInst (raiseIllegalCmd s.inst))) ∨
    (i = 2 ∧ (∃ j, decode v = .operation j ∧ invalidReference s.cfg.aw s.inst.src s.inst.len = true) ∧
      regWrite i v s = .next (s.setInst (raiseInvalidInput s.inst))) ∨
    (i = 2 ∧ ∃ j, decode v = .operation j ∧ invalidReference s.cfg.aw s.inst.src s.inst.len = false ∧
      regWrite i v s = .next (s.setInst (accept (funcOf j) (initAcc j) s.inst))) ∨
    (2 < i.toNat ∧ regWrite i v s = .next s) := by
  have hi := i.isLt
  rcases (by omega : i.toNat = 0 ∨ i.toNat = 1 ∨ i.toNat = 2 ∨ 2 < i.toNat) with h | h | h | h
  · exact .inl ⟨BitVec.eq_of_toNat_eq h, by simp [regWrite, h, writeSrc, hb]⟩
  · exact .inr (.inl ⟨BitVec.eq_of_toNat_eq h, by simp [regWrite, h, writeLen, hb]⟩)
  · have hw : regWrite i v s = writeCmd v s := by simp [regWrite, h]
    have h2 : i = 2 := BitVec.eq_of_toNat_eq h
    rcases writeCmd_cases v s with ⟨j, hj, hc⟩ | ⟨hj, hc⟩
    · rcases commandOp_cases (funcOf j) (initAcc j) s with ⟨h', -⟩ | ⟨-, hv, ho⟩ | ⟨-, hv, ho⟩
      · simp [hb] at h'
      · exact .inr (.inr (.inr (.inl ⟨h2, ⟨j, hj, hv⟩, hw.trans (hc.trans ho)⟩)))
      · exact .inr (.inr (.inr (.inr (.inl ⟨h2, j, hj, hv, hw.trans (hc.trans ho)⟩))))
    · exact .inr (.inr (.inl ⟨h2, hj, by rw [hw, hc]; simp [illegalCommand, hb]⟩))
  · refine .inr (.inr (.inr (.inr (.inr ⟨h, ?_⟩))))
    unfold regWrite
    split <;> first | omega | rfl

end Sys2Proof.Machine
end

