-- ==== Sys2Proof/Laws/Operands.lean ====
section
/-!
SUPPORT. The operand form (R71, R108): what an `AW`-bit register stores, and that the byte address and the
byte index do not wrap in a run (R30, R108).
-/

namespace Sys2Proof.Machine

theorem pow_le_word {aw : Nat} (h : aw ≤ 64) : 2 ^ aw ≤ 2 ^ 64 := Nat.pow_le_pow_right (by decide) h

theorem toNat_lowBits {aw : Nat} (h : aw ≤ 64) (v : Word) : (lowBits aw v).toNat = v.toNat % 2 ^ aw := by
  have := pow_le_word h
  have := Nat.mod_lt v.toNat (Nat.two_pow_pos aw)
  simp only [lowBits, BitVec.toNat_ofNat]
  exact Nat.mod_eq_of_lt (by omega)

theorem lowBits_lt {aw : Nat} (h : aw ≤ 64) (v : Word) : (lowBits aw v).toNat < 2 ^ aw := by
  rw [toNat_lowBits h]; exact Nat.mod_lt _ (Nat.two_pow_pos aw)

/-- R91's condition, negated: the message is empty, or it starts above 0 and ends at `2^AW` at most. -/
theorem invalidReference_eq_false {aw : Nat} {src len : Word} :
    invalidReference aw src len = false ↔ len = 0 ∨ (src ≠ 0 ∧ src.toNat + len.toNat ≤ 2 ^ aw) := by
  simp only [invalidReference, decide_eq_false_iff_not]
  by_cases h : len = 0
  · simp [h]
  · simp only [h, ne_eq, not_false_eq_true, true_and, not_or, false_or, gt_iff_lt,
      Nat.not_lt]

/-- The address of byte `IDX` of a valid message is `SRC + IDX` itself (R108). -/
theorem byteAddress_of_valid {aw : Nat} {src len idx : Word} (hv : invalidReference aw src len = false)
    (hi : idx.toNat < len.toNat) : byteAddress aw src idx = src.toNat + idx.toNat := by
  rcases invalidReference_eq_false.mp hv with h | h
  · subst h; simp at hi
  · exact Nat.mod_eq_of_lt (by omega)

/-- The index of the byte after byte `IDX` of a valid message is `IDX + 1` itself (R30). -/
theorem toNat_nextIdx {aw : Nat} {src len idx : Word} (hv : invalidReference aw src len = false)
    (hi : idx.toNat < len.toNat) : (nextIdx aw idx).toNat = idx.toNat + 1 := by
  rcases invalidReference_eq_false.mp hv with h | ⟨h0, h⟩
  · subst h; simp at hi
  · have hs : src.toNat ≠ 0 := fun hz => h0 (BitVec.eq_of_toNat_eq (by simpa using hz))
    have hl := len.isLt
    simp only [nextIdx, BitVec.toNat_ofNat]
    rw [Nat.mod_eq_of_lt (a := idx.toNat + 1) (by omega)]
    exact Nat.mod_eq_of_lt (by omega)

end Sys2Proof.Machine
end

