-- ==== Sys2Proof/Laws/Engine.lean ====
section
/-!
SUPPORT. What an engine step can do (R93, R94, R95).
-/

namespace Sys2Proof.Machine

/-- An idle engine agent has no step (R99). -/
theorem engineStep_idle (s : State) (hb : s.inst.busy = false) : engineStep s = .next s := by
  simp [engineStep, hb]

/-- Everything an engine step that answers a next state has done. -/
theorem engineStep_cases {s t : State} (h : engineStep s = .next t) :
    (s.inst.busy = false ∧ t = s) ∨
    (s.inst.busy = true ∧ ∃ i, opOfFunc s.inst.func = some i ∧
      ((s.inst.idx.toNat < s.inst.len.toNat ∧
          t = s.setInst (readStep s.cfg.aw i (byteAddress s.cfg.aw s.inst.src s.inst.idx)
            (memAnswer s.cfg s.mem (byteAddress s.cfg.aw s.inst.src s.inst.idx)) s.inst)) ∨
        (s.inst.idx = s.inst.len ∧ t = s.setInst (completionStep s.inst)))) := by
  unfold engineStep at h
  cases hb : s.inst.busy
  · exact .inl ⟨rfl, by simpa [hb, eq_comm] using h⟩
  · refine .inr ⟨rfl, ?_⟩
    simp only [hb, if_true] at h
    cases hi : opOfFunc s.inst.func with
    | none => simp [hi] at h
    | some i =>
      refine ⟨i, rfl, ?_⟩
      simp only [hi] at h
      by_cases hlt : s.inst.idx.toNat < s.inst.len.toNat
      · exact .inl ⟨hlt, by simpa [hlt, eq_comm] using h⟩
      · by_cases heq : s.inst.idx = s.inst.len
        · exact .inr ⟨heq, by simpa [hlt, heq, eq_comm] using h⟩
        · simp [hlt, heq] at h

/-- With an operation running and `IDX` at most `LEN` the engine agent has a step (R99). -/
theorem engineStep_next (s : State) {i : Instr} (hf : opOfFunc s.inst.func = some i)
    (hi : s.inst.idx.toNat ≤ s.inst.len.toNat) : ∃ e, engineStep s = .next (s.setInst e) := by
  unfold engineStep
  cases hb : s.inst.busy
  · exact ⟨s.inst, by simp⟩
  · by_cases hlt : s.inst.idx.toNat < s.inst.len.toNat
    · exact ⟨_, by simp only [if_true, hf, hlt]; rfl⟩
    · have heq : s.inst.idx = s.inst.len := BitVec.eq_of_toNat_eq (by omega)
      exact ⟨completionStep s.inst, by simp [hf, heq]⟩

end Sys2Proof.Machine
end

