-- ==== Sys2Proof/Laws/Memory.lean ====
section
/-!
SUPPORT. The laws of the source space: what a read gives after a write, and that a write keeps the canonical
form and the bounds of the space.
-/

namespace Sys2Proof.Machine

theorem Memory.wfFrom_mono {lo lo' : Nat} (h : lo' ≤ lo) {m : Memory} (hm : Memory.wfFrom lo m = true) :
    Memory.wfFrom lo' m = true := by
  cases m with
  | nil => rfl
  | cons c rest =>
    simp only [Memory.wfFrom, Bool.and_eq_true, decide_eq_true_eq] at hm ⊢
    exact ⟨⟨by omega, hm.1.2⟩, hm.2⟩

/-- Nothing below the bound is listed. -/
theorem Memory.read_below {m : Memory} {lo a : Nat} (hm : Memory.wfFrom lo m = true) (h : a < lo) :
    Memory.read m a = Memory.unlisted := by
  cases m with
  | nil => rfl
  | cons c rest =>
    simp only [Memory.wfFrom, Bool.and_eq_true, decide_eq_true_eq] at hm
    simp [Memory.read, show a < c.1 by omega]

theorem Memory.read_cons_same (a : Nat) (b : Byte) {m : Memory} (hm : Memory.wfFrom (a + 1) m = true) :
    Memory.read (Memory.cons a b m) a = b := by
  unfold Memory.cons
  split
  · rw [Memory.read_below hm (by omega)]; exact Eq.symm ‹_›
  · simp [Memory.read]

theorem Memory.read_cons_other {a x : Nat} (b : Byte) {m : Memory} (h : x ≠ a) (hm : Memory.wfFrom (a + 1) m = true) :
    Memory.read (Memory.cons a b m) x = Memory.read m x := by
  unfold Memory.cons
  split
  · rfl
  · by_cases hlt : x < a
    · rw [Memory.read_below hm (by omega)]; simp [Memory.read, hlt]
    · simp [Memory.read, hlt, h]

theorem Memory.cons_wfFrom {lo a : Nat} (b : Byte) {m : Memory} (h : lo ≤ a) (hm : Memory.wfFrom (a + 1) m = true) :
    Memory.wfFrom lo (Memory.cons a b m) = true := by
  unfold Memory.cons
  split
  · exact Memory.wfFrom_mono (by omega) hm
  · simp_all [Memory.wfFrom]

/-- A write keeps the canonical form. -/
theorem Memory.write_wfFrom {m : Memory} (a : Nat) (b : Byte) :
    ∀ {lo : Nat}, lo ≤ a → Memory.wfFrom lo m = true → Memory.wfFrom lo (Memory.write m a b) = true := by
  induction m with
  | nil => intro lo h _; exact Memory.cons_wfFrom b h rfl
  | cons c rest ih =>
    intro lo h hm
    simp only [Memory.wfFrom, Bool.and_eq_true, decide_eq_true_eq] at hm
    unfold Memory.write
    split
    · refine Memory.cons_wfFrom b h ?_
      simp only [Memory.wfFrom, Bool.and_eq_true, decide_eq_true_eq]
      exact ⟨⟨by omega, hm.1.2⟩, hm.2⟩
    · split
      · subst_vars; exact Memory.cons_wfFrom b h hm.2
      · simp only [Memory.wfFrom, Bool.and_eq_true, decide_eq_true_eq]
        exact ⟨hm.1, ih (by omega) hm.2⟩

theorem Memory.write_wf {m : Memory} (a : Nat) (b : Byte) (h : Memory.wf m = true) :
    Memory.wf (Memory.write m a b) = true := Memory.write_wfFrom a b (Nat.zero_le _) h

/-- Reading the byte just written, and reading any other byte, in a canonical memory. -/
theorem Memory.read_writeFrom {m : Memory} (a : Nat) (b : Byte) (x : Nat) :
    ∀ {lo : Nat}, Memory.wfFrom lo m = true →
      Memory.read (Memory.write m a b) x = if x = a then b else Memory.read m x := by
  induction m with
  | nil =>
    intro lo _
    by_cases h : x = a
    · subst h; simpa [Memory.write] using Memory.read_cons_same x b (m := []) rfl
    · simpa [Memory.write, h] using Memory.read_cons_other b (m := []) h rfl
  | cons c rest ih =>
    intro lo hm
    simp only [Memory.wfFrom, Bool.and_eq_true, decide_eq_true_eq] at hm
    unfold Memory.write
    split
    · have hw : Memory.wfFrom (a + 1) (c :: rest) = true := by
        simp only [Memory.wfFrom, Bool.and_eq_true, decide_eq_true_eq]
        exact ⟨⟨by omega, hm.1.2⟩, hm.2⟩
      by_cases h : x = a
      · subst h; simp [Memory.read_cons_same x b hw]
      · simp [h, Memory.read_cons_other b h hw]
    · split
      · rename_i hlt heq
        subst heq
        by_cases h : x = c.1
        · subst h; simp [Memory.read_cons_same c.1 b hm.2]
        · rw [Memory.read_cons_other b h hm.2, if_neg h]
          by_cases hx : x < c.1
          · rw [Memory.read_below hm.2 (by omega)]; simp [Memory.read, hx]
          · simp [Memory.read, hx, h]
      · rename_i hlt heq
        simp only [Memory.read]
        rw [ih hm.2]
        by_cases hx : x < c.1
        · have : x ≠ a := by omega
          simp [hx, this]
        · by_cases hx' : x = c.1
          · have : x ≠ a := by omega
            simp [hx', show c.1 ≠ a by omega]
          · simp [hx, hx']

theorem Memory.read_write {m : Memory} (h : Memory.wf m = true) (a : Nat) (b : Byte) (x : Nat) :
    Memory.read (Memory.write m a b) x = if x = a then b else Memory.read m x := Memory.read_writeFrom a b x h

theorem Memory.cons_inSpace {aw : Nat} {m : Memory} {a : Nat} (b : Byte) (ha : a < 2 ^ aw)
    (h : Memory.inSpace aw m = true) : Memory.inSpace aw (Memory.cons a b m) = true := by
  unfold Memory.cons
  split
  · exact h
  · unfold Memory.inSpace at h ⊢
    rw [List.all_cons, h, Bool.and_true, decide_eq_true_eq]
    exact ha

/-- A write inside the source space lists nothing outside it. -/
theorem Memory.write_inSpace {aw : Nat} {m : Memory} {a : Nat} (b : Byte) (ha : a < 2 ^ aw)
    (h : Memory.inSpace aw m = true) : Memory.inSpace aw (Memory.write m a b) = true := by
  induction m with
  | nil => exact Memory.cons_inSpace b ha rfl
  | cons c rest ih =>
    have hrest : Memory.inSpace aw rest = true := by
      unfold Memory.inSpace at h ⊢
      rw [List.all_cons, Bool.and_eq_true] at h
      exact h.2
    unfold Memory.write
    split
    · exact Memory.cons_inSpace b ha h
    · split
      · exact Memory.cons_inSpace b ha hrest
      · unfold Memory.inSpace at h ⊢
        rw [List.all_cons, Bool.and_eq_true] at h ⊢
        exact ⟨h.1, ih hrest⟩

end Sys2Proof.Machine
end

