-- ==== Sys2Proof/Laws/Step.lean ====
section
/-!
SUPPORT. What a step of the machine can be: one event of one agent.
-/

namespace Sys2Proof.Machine

theorem takeTurn_host {s : State} {k : Nat} (h : k < s.insts.length) :
    takeTurn (.host k) s = hostStep (s.setActive k) := by simp [takeTurn, Turn.wf, h]

theorem takeTurn_engine {s : State} {k : Nat} (h : k < s.insts.length) :
    takeTurn (.engine k) s = engineStep (s.setActive k) := by simp [takeTurn, Turn.wf, h]

theorem takeTurn_reset (s : State) : takeTurn .reset s = .next (resetEvent s) := by simp [takeTurn, Turn.wf]

theorem takeTurn_memWrite {s : State} {a : Nat} (b : Byte) (h : a < 2 ^ s.cfg.aw) :
    takeTurn (.memWrite a b) s = .next (s.setMem (Memory.write s.mem a b)) := by simp [takeTurn, Turn.wf, h]

/-- A turn that answers a next state was well formed. -/
theorem takeTurn_next_wf {t : Turn} {s s' : State} (h : takeTurn t s = .next s') :
    Turn.wf s.cfg.aw s.insts.length t = true := by
  unfold takeTurn at h
  by_contra hw
  simp [hw] at h

/-- The instance found first has the property, and is there. -/
theorem firstWith_some {p : Instance → Bool} {l : List Instance} {n k : Nat} (h : firstWith p n l = some k) :
    n ≤ k ∧ ∃ hk : k - n < l.length, p l[k - n] = true := by
  induction l generalizing n with
  | nil => simp [firstWith] at h
  | cons e rest ih =>
    unfold firstWith at h
    split at h
    · simp only [Option.some.injEq] at h
      subst h
      exact ⟨Nat.le_refl _, by simp, by simpa⟩
    · obtain ⟨h1, h2, h3⟩ := ih h
      refine ⟨by omega, by simp only [List.length_cons]; omega, ?_⟩
      have hk : k - n = (k - (n + 1)) + 1 := by omega
      simpa only [hk, List.getElem_cons_succ] using h3

/-- Nothing was found: no instance has the property. -/
theorem firstWith_none {p : Instance → Bool} {l : List Instance} {n : Nat} (h : firstWith p n l = none) :
    ∀ e ∈ l, p e = false := by
  induction l generalizing n with
  | nil => simp
  | cons e rest ih =>
    unfold firstWith at h
    split at h
    · simp at h
    · intro x hx
      rcases List.mem_cons.mp hx with rfl | hx
      · exact Bool.eq_false_iff.mpr ‹¬_›
      · exact ih h x hx

/-- One step, then the rest. -/
theorem runSteps_next {s t : State} (n : Nat) (h : step s = .next t) : runSteps (n + 1) s = runSteps n t := by
  rw [runSteps, h]

/-- A run stops at the first fault. -/
theorem runSteps_fault {s : State} {r : Fault} (n : Nat) (h : step s = .fault r) :
    runSteps (n + 1) s = .fault r := by rw [runSteps, h]

/-- A run stops at the first refusal. -/
theorem runSteps_refused {s : State} {r : Refusal} (n : Nat) (h : step s = .refused r) :
    runSteps (n + 1) s = .refused r := by rw [runSteps, h]

/-- A run that ends in a next state took a step to a next state. -/
theorem runSteps_succ_next {s t : State} {n : Nat} (h : runSteps (n + 1) s = .next t) :
    ∃ u, step s = .next u ∧ runSteps n u = .next t := by
  rw [runSteps] at h
  cases hs : step s with
  | next u => rw [hs] at h; exact ⟨u, rfl, h⟩
  | fault r => rw [hs] at h; cases h
  | refused r => rw [hs] at h; cases h

/-- One step of the host's run, and the two ways it can stop there. -/
theorem run_step (M : Host.Core) (n : Nat) (s : M.State) :
    (∀ t, M.step s = .next t → M.run (n + 1) s = M.run n t) ∧
    (∀ r, M.step s = .fault r → M.run (n + 1) s = .fault r) ∧
    (∀ r, M.step s = .refused r → M.run (n + 1) s = .refused r) := by
  refine ⟨fun t h => ?_, fun r h => ?_, fun r h => ?_⟩ <;> rw [Host.Core.run, h]

/-- `runSteps` is the host's own run of the machine. -/
theorem runSteps_eq_run (n : Nat) (s : State) : runSteps n s = Host.Core.run Sys2Proof.core n s := by
  induction n generalizing s with
  | zero => rfl
  | succ n ih =>
    obtain ⟨hn, hf, hr⟩ := run_step Sys2Proof.core n s
    cases h : step s with
    | next t => exact (runSteps_next n h).trans ((ih t).trans (hn t h).symm)
    | fault r => exact (runSteps_fault n h).trans (hf r h).symm
    | refused r => exact (runSteps_refused n h).trans (hr r h).symm

/-- Steps in two stretches. -/
theorem runSteps_add {n : Nat} {s t : State} (h : runSteps n s = .next t) (k : Nat) :
    runSteps (n + k) s = runSteps k t := by
  induction n generalizing s with
  | zero =>
    obtain rfl : s = t := Host.Outcome.next.inj h
    rw [Nat.zero_add]
  | succ n ih =>
    obtain ⟨u, hs, hu⟩ := runSteps_succ_next h
    rw [Nat.add_right_comm, runSteps_next _ hs]
    exact ih hu

/-- Everything a step that answers a next state is: a host's turn, an engine agent's, a reset, a write by
another agent, or nothing at all in a machine with nothing to do. `s0` is `s` with its first turn, if it had
one, taken off. -/
theorem step_cases {s t : State} (h : step s = .next t) :
    ∃ s0 : State, s0 = s.setTurns s.turns.tail ∧
      ((∃ k, k < s.insts.length ∧ (s.turns.head? = some (.host k) ∨ s.turns = []) ∧
          hostStep (s0.setActive k) = .next t) ∨
        (∃ k, k < s.insts.length ∧ (s.turns.head? = some (.engine k) ∨ s.turns = []) ∧
          engineStep (s0.setActive k) = .next t) ∨
        (s.turns.head? = some .reset ∧ t = resetEvent s0) ∨
        (∃ a b, s.turns.head? = some (.memWrite a b) ∧ a < 2 ^ s.cfg.aw ∧
          t = s0.setMem (Memory.write s.mem a b)) ∨
        (s.turns = [] ∧ (∀ e ∈ s.insts, e.busy = false ∧ e.todo = []) ∧ t = s)) := by
  unfold step at h
  split at h
  · rename_i u us hus
    have hw := takeTurn_next_wf h
    refine ⟨s.setTurns us, by simp [hus], ?_⟩
    simp only [hus, List.head?_cons, Option.some.injEq]
    cases u with
    | host k =>
      have hk : k < s.insts.length := of_decide_eq_true hw
      exact .inl ⟨k, hk, .inl rfl, by rwa [takeTurn_host (s := s.setTurns us) hk] at h⟩
    | engine k =>
      have hk : k < s.insts.length := of_decide_eq_true hw
      exact .inr (.inl ⟨k, hk, .inl rfl, by rwa [takeTurn_engine (s := s.setTurns us) hk] at h⟩)
    | reset =>
      rw [takeTurn_reset] at h
      exact .inr (.inr (.inl ⟨rfl, (Host.Outcome.next.inj h).symm⟩))
    | memWrite a b =>
      have ha : a < 2 ^ s.cfg.aw := of_decide_eq_true hw
      rw [takeTurn_memWrite (s := s.setTurns us) b ha] at h
      exact .inr (.inr (.inr (.inl ⟨a, b, rfl, ha, (Host.Outcome.next.inj h).symm⟩)))
  · rename_i hus
    have hs : s.setTurns s.turns.tail = s := by rw [hus, List.tail_nil, ← hus, State.setTurns_turns_self]
    refine ⟨s, hs.symm, ?_⟩
    unfold defaultMove at h
    split at h
    · rename_i k hk
      obtain ⟨-, hk, -⟩ := firstWith_some hk
      exact .inr (.inl ⟨k, by simpa using hk, .inr hus, h⟩)
    · rename_i hnb
      split at h
      · rename_i k hk
        obtain ⟨-, hk, -⟩ := firstWith_some hk
        exact .inl ⟨k, by simpa using hk, .inr hus, h⟩
      · rename_i hnt
        have hnt := firstWith_none hnt
        refine .inr (.inr (.inr (.inr ⟨hus, fun e he => ⟨firstWith_none hnb e he, ?_⟩, (Host.Outcome.next.inj h).symm⟩)))
        simpa using hnt e he

end Sys2Proof.Machine
end

