-- ==== Sys2Proof/Laws/Change.lean ====
section
/-!
SUPPORT. What a turn can make of one instance. A host's turn and an engine agent's turn change the active instance
only, in one of a few ways; a step changes any one instance in one of those ways, by a reset, or not at all.
-/

namespace Sys2Proof.Machine

/-- What a write to the register port can make of an idle instance `e` (R22 to R24, R90 to R92). -/
def PortWrite (aw : Nat) (i : RegIndex) (v : Word) (e e' : Instance) : Prop :=
  (i = 0 ∧ e' = { e with src := lowBits aw v }) ∨ (i = 1 ∧ e' = { e with len := lowBits aw v }) ∨
  (i = 2 ∧ (∀ j, decode v ≠ .operation j) ∧ e' = raiseIllegalCmd e) ∨
  (i = 2 ∧ (∃ j, decode v = .operation j) ∧ invalidReference aw e.src e.len = true ∧ e' = raiseInvalidInput e) ∨
  (i = 2 ∧ ∃ j, decode v = .operation j ∧ invalidReference aw e.src e.len = false ∧
    e' = accept (funcOf j) (initAcc j) e) ∨
  (2 < i.toNat ∧ e' = e)

/-- What a host's turn can make of its instance: nothing, a read served, or a write that is dropped while busy and
handled while idle. -/
def HostChange (aw : Nat) (e e' : Instance) : Prop :=
  e' = e ∨
  (∃ i ls, (e.todo = .rd i :: ls ∨ (i = 3 ∧ (e.todo = .wait :: ls ∨ e.todo = ls))) ∧ e' = regRead i (e.setTodo ls)) ∨
  (∃ i v rest, e.todo = .wr i v :: rest ∧
    ((e.busy = true ∧ e' = e.setTodo rest) ∨ (e.busy = false ∧ PortWrite aw i v (e.setTodo rest) e')))

/-- What an engine agent's turn can make of its instance (R93 to R95, R99). -/
def EngineChange (c : Config) (m : Memory) (e e' : Instance) : Prop :=
  (e.busy = false ∧ e' = e) ∨
  (e.busy = true ∧ ∃ i, opOfFunc e.func = some i ∧
    ((e.idx.toNat < e.len.toNat ∧
        e' = readStep c.aw i (byteAddress c.aw e.src e.idx) (memAnswer c m (byteAddress c.aw e.src e.idx)) e) ∨
      (e.idx = e.len ∧ e' = completionStep e)))

/-- A write to the port always answers, and replaces the active instance only. -/
theorem regWrite_change (i : RegIndex) (v : Word) (s : State) :
    ∃ e, regWrite i v s = .next (s.setInst e) ∧
      ((s.inst.busy = true ∧ e = s.inst) ∨ (s.inst.busy = false ∧ PortWrite s.cfg.aw i v s.inst e)) := by
  cases hb : s.inst.busy
  · rcases regWrite_idle i v s hb with
      ⟨h1, h⟩ | ⟨h1, h⟩ | ⟨h1, h2, h⟩ | ⟨h1, ⟨j, h2, h3⟩, h⟩ | ⟨h1, j, h2, h3, h⟩ | ⟨h1, h⟩
    · exact ⟨_, h, .inr ⟨rfl, .inl ⟨h1, rfl⟩⟩⟩
    · exact ⟨_, h, .inr ⟨rfl, .inr (.inl ⟨h1, rfl⟩)⟩⟩
    · exact ⟨_, h, .inr ⟨rfl, .inr (.inr (.inl ⟨h1, h2, rfl⟩))⟩⟩
    · exact ⟨_, h, .inr ⟨rfl, .inr (.inr (.inr (.inl ⟨h1, ⟨j, h2⟩, h3, rfl⟩)))⟩⟩
    · exact ⟨_, h, .inr ⟨rfl, .inr (.inr (.inr (.inr (.inl ⟨h1, j, h2, h3, rfl⟩))))⟩⟩
    · exact ⟨s.inst, by simpa using h, .inr ⟨rfl, .inr (.inr (.inr (.inr (.inr ⟨h1, rfl⟩))))⟩⟩
  · exact ⟨s.inst, by simpa using regWrite_busy i v s hb, .inl ⟨rfl, rfl⟩⟩

/-- A host's turn always answers, and replaces the active instance only. -/
theorem hostStep_change {s : State} (ha : s.active < s.insts.length) :
    ∃ e, hostStep s = .next (s.setInst e) ∧ HostChange s.cfg.aw s.inst e := by
  unfold hostStep
  cases ht : s.inst.todo with
  | nil => exact ⟨s.inst, by simp, .inl rfl⟩
  | cons l rest =>
    cases l with
    | wr i v =>
      obtain ⟨e, h1, h2⟩ := regWrite_change i v (s.setInst (s.inst.setTodo rest))
      rw [State.inst_setInst _ ha] at h2
      exact ⟨e, by simpa [hostLine] using h1, .inr (.inr ⟨i, v, rest, ht, by simpa using h2⟩)⟩
    | rd i => exact ⟨_, rfl, .inr (.inl ⟨i, rest, .inl ht, rfl⟩)⟩
    | wait =>
      simp only [hostLine]
      split
      · exact ⟨_, rfl, .inr (.inl ⟨3, rest, .inr ⟨rfl, .inl ht⟩, rfl⟩)⟩
      · exact ⟨_, rfl, .inr (.inl ⟨3, s.inst.todo, .inr ⟨rfl, .inr rfl⟩, rfl⟩)⟩

/-- An engine agent's turn that answers replaces the active instance only. -/
theorem engineStep_change {s t : State} (h : engineStep s = .next t) :
    ∃ e, t = s.setInst e ∧ EngineChange s.cfg s.mem s.inst e := by
  rcases engineStep_cases h with ⟨hb, rfl⟩ | ⟨hb, i, ho, ⟨h1, rfl⟩ | ⟨h1, rfl⟩⟩
  · exact ⟨t.inst, by simp, .inl ⟨hb, rfl⟩⟩
  · exact ⟨_, rfl, .inr ⟨hb, i, ho, .inl ⟨h1, rfl⟩⟩⟩
  · exact ⟨_, rfl, .inr ⟨hb, i, ho, .inr ⟨h1, rfl⟩⟩⟩

/-- A reset event makes of every instance its reset instance, and keeps their number. -/
theorem resetInstances_getElem? {aw : Nat} {l : List Instance} {n k : Nat} {e' : Instance}
    (h : (resetInstances aw n l)[k]? = some e') : ∃ e, l[k]? = some e ∧ e' = resetInstance aw (n + k) e := by
  induction l generalizing n k with
  | nil => simp [resetInstances] at h
  | cons x l ih =>
    cases k with
    | zero => exact ⟨x, rfl, by simpa [resetInstances, eq_comm] using h⟩
    | succ k =>
      obtain ⟨e, h1, h2⟩ := ih (n := n + 1) (k := k) (by simpa [resetInstances] using h)
      exact ⟨e, by simpa using h1, by rw [h2]; congr 1; omega⟩

@[simp] theorem length_resetInstances (aw n : Nat) (l : List Instance) :
    (resetInstances aw n l).length = l.length := by
  induction l generalizing n with
  | nil => rfl
  | cons x l ih => simp [resetInstances, ih]

/-- The instances after the active one was replaced. -/
theorem getElem?_setInst {s : State} {x e' : Instance} {k : Nat} (h : (s.setInst x).insts[k]? = some e') :
    s.insts[k]? = some e' ∨ (k = s.active ∧ e' = x) := by
  by_cases hk : k = s.active
  · refine .inr ⟨hk, ?_⟩
    rw [State.setInst_insts, List.getElem?_set, if_pos hk.symm] at h
    split at h <;> simp_all
  · exact .inl (by rwa [State.setInst_other _ _ _ hk] at h)

/-- Everything a step can make of one instance. -/
theorem step_change {s t : State} {k : Nat} {e e' : Instance} (h : step s = .next t) (he : s.insts[k]? = some e)
    (he' : t.insts[k]? = some e') :
    e' = e ∨ HostChange s.cfg.aw e e' ∨ EngineChange s.cfg s.mem e e' ∨
      (s.turns.head? = some .reset ∧ e' = resetInstance s.cfg.aw (s.fresh + k) e) := by
  obtain ⟨s0, rfl, ⟨j, hj, -, h3⟩ | ⟨j, hj, -, h3⟩ | ⟨h3, rfl⟩ | ⟨a, b, -, -, rfl⟩ | ⟨-, -, rfl⟩⟩ := step_cases h
  · obtain ⟨x, h4, h5⟩ := hostStep_change (s := (s.setTurns s.turns.tail).setActive j) hj
    rw [h4] at h3
    cases h3
    rcases getElem?_setInst he' with h6 | ⟨rfl, rfl⟩
    · exact .inl (Option.some.inj (h6.symm.trans he))
    · refine .inr (.inl ?_)
      have hi : ((s.setTurns s.turns.tail).setActive k).inst = e := by simp [State.inst, show s.insts[k]? = some e from he]
      rwa [hi] at h5
  · obtain ⟨x, rfl, h5⟩ := engineStep_change h3
    rcases getElem?_setInst he' with h6 | ⟨rfl, rfl⟩
    · exact .inl (Option.some.inj (h6.symm.trans he))
    · refine .inr (.inr (.inl ?_))
      have hi : ((s.setTurns s.turns.tail).setActive k).inst = e := by simp [State.inst, show s.insts[k]? = some e from he]
      rwa [hi] at h5
  · obtain ⟨x, h4, h5⟩ := resetInstances_getElem? he'
    obtain rfl : x = e := Option.some.inj (h4.symm.trans he)
    exact .inr (.inr (.inr ⟨h3, h5⟩))
  · exact .inl (Option.some.inj (he'.symm.trans he))
  · exact .inl (Option.some.inj (he'.symm.trans he))

end Sys2Proof.Machine
end

