-- ==== Sys2Proof/Laws/Decode.lean ====
section
/-!
SUPPORT. The decoder's parts: its two fields as numbers, the operation number of an operation, and when a word is
an operation.
-/

namespace Sys2Proof

/-- `FUNC` of a word is the word modulo 16 (R70). -/
theorem toNat_funcField (v : Word) : (funcField v).toNat = v.toNat % 16 := by
  unfold funcField
  simp only [BitVec.extractLsb'_toNat, Nat.shiftRight_eq_div_pow, Nat.pow_zero, Nat.div_one]

/-- `ZERO` of a word is clear exactly when the word is below 16 (R70). -/
theorem zeroField_eq_zero (v : Word) : zeroField v = 0 ↔ v.toNat / 16 = 0 := by
  rw [← BitVec.toNat_inj, zeroField, BitVec.extractLsb'_toNat, Nat.shiftRight_eq_div_pow]
  have := v.isLt
  change v.toNat / 16 % 2 ^ 60 = 0 ↔ _
  omega

/-- The number of an operation names it (R31, R72). -/
@[simp] theorem opOfFunc_funcOf (i : Instr) : opOfFunc (funcOf i) = some i := by cases i <;> decide

/-- A number that names an operation is that operation's number. -/
theorem funcOf_of_opOfFunc {f : FuncNo} {i : Instr} (h : opOfFunc f = some i) : funcOf i = f := by
  have hall : ∀ g : FuncNo, ∀ j ∈ opOfFunc g, funcOf j = g := by decide
  exact hall f i h

/-- The numbers 10 to 15 name nothing (R72). -/
theorem opOfFunc_eq_none : ∀ f : FuncNo, opOfFunc f = none ↔ 10 ≤ f.toNat := by decide

/-- A word is an operation when its `ZERO` field is clear and its `FUNC` field names one (R73). -/
theorem decode_eq_operation {v : Word} {i : Instr} :
    decode v = .operation i ↔ zeroField v = 0 ∧ opOfFunc (funcField v) = some i := by
  unfold decode
  by_cases h : zeroField v = 0
  · cases ho : opOfFunc (funcField v) <;> simp [h]
  · rw [if_pos h]
    exact ⟨fun hc => (nomatch hc), fun hc => absurd hc.1 h⟩

end Sys2Proof
end

