-- ==== Sys2Proof/Laws/Digest.lean ====
section
/-!
SUPPORT. The digest as a fold over the accumulator register (R96).
-/

namespace Sys2Proof.Machine

/-- The empty message has the operation's initial constant as its digest (R95, R96). -/
theorem hashWord_nil (i : Instr) : hashWord i [] = initAcc i := by cases i <;> rfl

/-- One more byte is one more step of the accumulator register (R93, R96). -/
theorem hashWord_snoc (i : Instr) (m : List Byte) (r : Byte) :
    hashWord i (m ++ [r]) = stepAcc i (hashWord i m) r := by
  cases i <;>
    simp [hashWord, stepAcc, digestDjb2_32, digestDjb2_64, digestDjb2Xor_32, digestDjb2Xor_64, digestFnv1a_32,
      digestFnv1a_64, digestFnv1aOpt_32, digestFnv1aOpt_64, digestSdbm_32, digestSdbm_64]

end Sys2Proof.Machine
end

