-- ==== Sys2Proof/Laws/Flags.lean ====
section
/-!
SUPPORT. What each write to `STATUS` does, bit by bit, and on the five words `STATUS` takes (R26).
-/

namespace Sys2Proof.Machine

/-- A masked write takes the masked bits from the new value and leaves every other bit. -/
theorem getLsbD_setBits (w mask v : Word) (i : Nat) :
    (setBits w mask v).getLsbD i = if mask.getLsbD i then v.getLsbD i else w.getLsbD i := by
  by_cases hi : i < 64
  · simp only [setBits, BitVec.getLsbD_or, BitVec.getLsbD_and, BitVec.getLsbD_not, hi, decide_true, Bool.true_and]
    cases mask.getLsbD i <;> simp
  · simp [BitVec.getLsbD_of_ge _ _ (Nat.le_of_not_lt hi)]

/-- A property of the five words is five properties. -/
theorem forall_legalStatus {P : Word → Prop} (h : P 0x00 ∧ P 0x01 ∧ P 0x02 ∧ P 0x16 ∧ P 0x26) :
    ∀ w ∈ legalStatus, P w := by
  intro w hw
  simp only [legalStatus, List.mem_cons, List.not_mem_nil, or_false] at hw
  obtain ⟨h0, h1, h2, h3, h4⟩ := h
  rcases hw with rfl | rfl | rfl | rfl | rfl <;> assumption

theorem statusAccepted_of_legal : ∀ w ∈ legalStatus, statusAccepted w = 0x01 := forall_legalStatus (by decide)

theorem statusCompleted_of_running : statusCompleted 0x01 = 0x02 := by decide

/-- Of the five words only 0x01 has `BUSY` set. -/
theorem legalStatus_busy : ∀ w ∈ legalStatus, statusBusy w = true → w = 0x01 := forall_legalStatus (by decide)

theorem raiseInvalidInput_of_legal (e : Instance) (h : e.status ∈ legalStatus) :
    (raiseInvalidInput e).status = 0x16 :=
  forall_legalStatus (P := fun w => setErrCode codeInvalidInput (setErr true (setDone true (setBusy false w))) = 0x16)
    (by decide) _ h

theorem raiseIllegalCmd_of_legal (e : Instance) (h : e.status ∈ legalStatus) (hb : e.busy = false) :
    (raiseIllegalCmd e).status = 0x26 :=
  forall_legalStatus (P := fun w => statusBusy w = false → setErrCode codeIllegalCmd (setErr true (setDone true w)) = 0x26)
    (by decide) _ h hb

end Sys2Proof.Machine
end

