-- ==== Sys2Proof/Laws/PerInstr.lean ====
section
/-!
SUPPORT. Statements about every instruction as syntax, one lemma per constructor: encoding then decoding gives
the instruction back, and its operation number names it (R70, R72, R73).
-/

namespace Sys2Proof.Laws

/-- The command word of `i` decodes to `i`, its `FUNC` field is `funcOf i`, and that number names `i`. -/
def RoundTrip.Statement (i : Instr) : Prop :=
  decode (encode i) = .operation i ∧ funcField (encode i) = funcOf i ∧ opOfFunc (funcOf i) = some i

theorem RoundTrip.hash_djb2_32 : RoundTrip.Statement .hash_djb2_32 := by unfold RoundTrip.Statement; decide

theorem RoundTrip.hash_djb2_64 : RoundTrip.Statement .hash_djb2_64 := by unfold RoundTrip.Statement; decide

theorem RoundTrip.hash_djb2_32_xor : RoundTrip.Statement .hash_djb2_32_xor := by unfold RoundTrip.Statement; decide

theorem RoundTrip.hash_djb2_64_xor : RoundTrip.Statement .hash_djb2_64_xor := by unfold RoundTrip.Statement; decide

theorem RoundTrip.hash_fnv1a_32 : RoundTrip.Statement .hash_fnv1a_32 := by unfold RoundTrip.Statement; decide

theorem RoundTrip.hash_fnv1a_64 : RoundTrip.Statement .hash_fnv1a_64 := by unfold RoundTrip.Statement; decide

theorem RoundTrip.hash_fnv1a_32_opt : RoundTrip.Statement .hash_fnv1a_32_opt := by unfold RoundTrip.Statement; decide

theorem RoundTrip.hash_fnv1a_64_opt : RoundTrip.Statement .hash_fnv1a_64_opt := by unfold RoundTrip.Statement; decide

theorem RoundTrip.hash_sdbm_32 : RoundTrip.Statement .hash_sdbm_32 := by unfold RoundTrip.Statement; decide

theorem RoundTrip.hash_sdbm_64 : RoundTrip.Statement .hash_sdbm_64 := by unfold RoundTrip.Statement; decide

end Sys2Proof.Laws
end

