-- ==== Sys2Proof/Tests/Slice0.lean ====
section
/-!
SUPPORT. Tests. Expected values are those of spec/30_encoding.md (R70, R72) and spec/95_test_vectors.md, whose section
each test names. The `witness_` theorems show, for every statement of Certificates/Slice0/Obligations.lean with
hypotheses, concrete states and operands that meet them, clause by clause, at boundary values.
-/

namespace Sys2Proof.Tests

open Sys2Proof Sys2Proof.Machine

/-! ### Small states -/

/-- One instance over a memory, under parameters, with turns. -/
def one (e : Instance) (m : Memory := []) (ts : List Turn := []) (c : Config := Config.standard) : State :=
  { cfg := c, insts := [e], active := 0, mem := m, turns := ts, fresh := 0 }

/-- An idle instance with a message reference and host lines. -/
def idle (src len : Word) (status : Word := 0x00) (todo : List HostLine := []) : Instance :=
  { Instance.reset with src := src, len := len, status := status, todo := todo }

/-- An instance that runs operation `i` and has read the bytes `m`. -/
def busyWith (i : Instr) (src len : Word) (m : List Byte) (todo : List HostLine := []) : Instance :=
  { Instance.reset with
    src := src
    len := len
    status := 0x01
    func := funcOf i
    acc := hashWord i m
    idx := BitVec.ofNat 64 m.length
    todo := todo
    reads := readsFrom src.toNat m }

/-- `"hello"` at 0x1000 (95_test_vectors.md P1). -/
def helloMem : Memory := [(0x1000, 0x68), (0x1001, 0x65), (0x1002, 0x6C), (0x1003, 0x6C), (0x1004, 0x6F)]

/-- Every address from 0x1000 up faults (as in 95_test_vectors.md P5). -/
def faulty : Config := { aw := 64, memFault := [{ lo := 0x1000, size := 2 ^ 64 }] }

/-- The next state's active instance, if there is one. -/
def instOf : Host.Outcome State Fault Refusal → Option Instance
  | .next t => some t.inst
  | .fault _ => none
  | .refused _ => none

/-! ### Decoding: words written out from R70, R72 -/

/-- `ZERO` = 0, `ALG` = 0, `WIDTH` = 0 (R72). -/
theorem test_decode_hash_djb2_32 : decode 0b0000000000000000000000000000000000000000000000000000000000000000 = .operation .hash_djb2_32 := by decide

/-- `ZERO` = 0, `ALG` = 0, `WIDTH` = 1 (R72). -/
theorem test_decode_hash_djb2_64 : decode 0b0000000000000000000000000000000000000000000000000000000000000001 = .operation .hash_djb2_64 := by decide

/-- `ZERO` = 0, `ALG` = 1, `WIDTH` = 0 (R72). -/
theorem test_decode_hash_djb2_32_xor : decode 0b0000000000000000000000000000000000000000000000000000000000000010 = .operation .hash_djb2_32_xor := by decide

/-- `ZERO` = 0, `ALG` = 1, `WIDTH` = 1 (R72). -/
theorem test_decode_hash_djb2_64_xor : decode 0b0000000000000000000000000000000000000000000000000000000000000011 = .operation .hash_djb2_64_xor := by decide

/-- `ZERO` = 0, `ALG` = 2, `WIDTH` = 0 (R72). -/
theorem test_decode_hash_fnv1a_32 : decode 0b0000000000000000000000000000000000000000000000000000000000000100 = .operation .hash_fnv1a_32 := by decide

/-- `ZERO` = 0, `ALG` = 2, `WIDTH` = 1 (R72). -/
theorem test_decode_hash_fnv1a_64 : decode 0b0000000000000000000000000000000000000000000000000000000000000101 = .operation .hash_fnv1a_64 := by decide

/-- `ZERO` = 0, `ALG` = 3, `WIDTH` = 0 (R72). -/
theorem test_decode_hash_fnv1a_32_opt : decode 0b0000000000000000000000000000000000000000000000000000000000000110 = .operation .hash_fnv1a_32_opt := by decide

/-- `ZERO` = 0, `ALG` = 3, `WIDTH` = 1 (R72). -/
theorem test_decode_hash_fnv1a_64_opt : decode 0b0000000000000000000000000000000000000000000000000000000000000111 = .operation .hash_fnv1a_64_opt := by decide

/-- `ZERO` = 0, `ALG` = 4, `WIDTH` = 0 (R72). -/
theorem test_decode_hash_sdbm_32 : decode 0b0000000000000000000000000000000000000000000000000000000000001000 = .operation .hash_sdbm_32 := by decide

/-- `ZERO` = 0, `ALG` = 4, `WIDTH` = 1 (R72). -/
theorem test_decode_hash_sdbm_64 : decode 0b0000000000000000000000000000000000000000000000000000000000001001 = .operation .hash_sdbm_64 := by decide

/-- 95_test_vectors.md 2.8: the illegal words. -/
theorem test_decode_illegal :
    decode 0x000000000000000A = .illegalFunc ∧ decode 0x000000000000000F = .illegalFunc ∧
    decode 0x0000000000000010 = .illegalZeroField ∧ decode 0x0000000100000004 = .illegalZeroField ∧
    decode 0x8000000000000005 = .illegalZeroField ∧ decode 0xFFFFFFFFFFFFFFFF = .illegalZeroField := by decide

/-- The opcode table's numbering: 64-bit rows; a word of more than 64 bits is no command (R75). -/
theorem test_decodeTableWord :
    decodeTableWord 64 0x4 = some .hash_fnv1a_32 ∧ decodeTableWord 64 0xA = none ∧
    decodeTableWord 128 (2 ^ 64) = none ∧ decodeTableWord 4 0x9 = some .hash_sdbm_64 := by decide

/-! ### Well-formedness: ill-formed terms refused -/

/-- `AW` below 1 or above 64 is no configuration (R6). -/
theorem test_wf_config :
    Config.wf { aw := 0, memFault := [] } = false ∧ Config.wf { aw := 65, memFault := [] } = false ∧
    Config.wf { aw := 1, memFault := [] } = true ∧ Config.wf Config.standard = true := by decide

/-- A host's turn of an instance that is not there is no turn. -/
theorem test_wf_turn_host : Turn.wf 64 1 (.host 1) = false ∧ Turn.wf 64 1 (.host 0) = true := by decide

/-- An engine agent's turn of an instance that is not there is no turn. -/
theorem test_wf_turn_engine : Turn.wf 64 2 (.engine 2) = false ∧ Turn.wf 64 2 (.engine 1) = true := by decide

/-- A write outside the source space is no turn (R50). -/
theorem test_wf_turn_memWrite :
    Turn.wf 8 1 (.memWrite 256 0) = false ∧ Turn.wf 8 1 (.memWrite 255 0) = true ∧ Turn.wf 8 1 .reset = true := by
  decide

/-- A command has no operand: every one is well formed (R71). -/
theorem test_wf_instr : Instr.wf .hash_sdbm_64 = true := by decide

/-- An ill-formed turn stops the machine by name. -/
theorem test_step_illFormedTurn : step (one Instance.reset [] [.engine 1]) = .fault .illFormedTurn := by rfl

/-- A memory out of order, with a repeated address, or listing the unlisted byte is not canonical. -/
theorem test_wf_memory :
    Memory.wf [(2, 1), (1, 1)] = false ∧ Memory.wf [(1, 1), (1, 2)] = false ∧ Memory.wf [(1, 0)] = false ∧
    Memory.wf helloMem = true ∧ Memory.inSpace 8 [(256, 1)] = false := by decide

/-- Writing the unlisted byte takes the cell out, and a write lands in order. -/
theorem test_memory_write :
    Memory.write [(1, 1), (3, 3)] 3 0 = [(1, 1)] ∧ Memory.write [(1, 1), (3, 3)] 2 2 = [(1, 1), (2, 2), (3, 3)] ∧
    Memory.write [(1, 1)] 1 7 = [(1, 7)] := by decide

/-! ### Each command: acceptance (R92), and one byte step (R93; 95_test_vectors.md 2.7) -/

theorem test_accept_hash_djb2_32 :
    (instOf (step ((one (idle 0x1000 5)).withFetchWord 64 0))).map (fun e => (e.func, e.acc, e.idx, e.status)) =
      some (0, 5381, 0, 0x01) := by decide

theorem test_byte_hash_djb2_32 :
    (instOf (engineStep (one { busyWith .hash_djb2_32 0x2000 2 [] with acc := 0x07C1F07C } [(0x2000, 0x61)]))).map
      (fun e => (e.acc, e.idx)) = some (0x0000005D, 1) := by decide

theorem test_accept_hash_djb2_64 :
    (instOf (step ((one (idle 0x1000 5)).withFetchWord 64 1))).map (fun e => (e.func, e.acc, e.idx, e.status)) =
      some (1, 5381, 0, 0x01) := by decide

theorem test_byte_hash_djb2_64 :
    (instOf (engineStep (one { busyWith .hash_djb2_64 0x2000 2 [] with acc := 0x07C1F07C1F07C1F0 } [(0x2000, 0x61)]))).map
      (fun e => (e.acc, e.idx)) = some (0x0000000000000051, 1) := by decide

theorem test_accept_hash_djb2_32_xor :
    (instOf (step ((one (idle 0x1000 5)).withFetchWord 64 2))).map (fun e => (e.func, e.acc, e.idx, e.status)) =
      some (2, 5381, 0, 0x01) := by decide

theorem test_byte_hash_djb2_32_xor :
    (instOf (engineStep (one { busyWith .hash_djb2_32_xor 0x2000 2 [] with acc := 0x07C1F07C } [(0x2000, 0x61)]))).map
      (fun e => (e.acc, e.idx)) = some (0xFFFFFF9D, 1) := by decide

theorem test_accept_hash_djb2_64_xor :
    (instOf (step ((one (idle 0x1000 5)).withFetchWord 64 3))).map (fun e => (e.func, e.acc, e.idx, e.status)) =
      some (3, 5381, 0, 0x01) := by decide

theorem test_byte_hash_djb2_64_xor :
    (instOf (engineStep (one { busyWith .hash_djb2_64_xor 0x2000 2 [] with acc := 0x07C1F07C1F07C1F0 } [(0x2000, 0x61)]))).map
      (fun e => (e.acc, e.idx)) = some (0xFFFFFFFFFFFFFF91, 1) := by decide

theorem test_accept_hash_fnv1a_32 :
    (instOf (step ((one (idle 0x1000 5)).withFetchWord 64 4))).map (fun e => (e.func, e.acc, e.idx, e.status)) =
      some (4, 2166136261, 0, 0x01) := by decide

theorem test_byte_hash_fnv1a_32 :
    (instOf (engineStep (one { busyWith .hash_fnv1a_32 0x2000 2 [] with acc := 0x80000000 } [(0x2000, 0x80)]))).map
      (fun e => (e.acc, e.idx)) = some (0x0000C980, 1) := by decide

theorem test_accept_hash_fnv1a_64 :
    (instOf (step ((one (idle 0x1000 5)).withFetchWord 64 5))).map (fun e => (e.func, e.acc, e.idx, e.status)) =
      some (5, 14695981039346656037, 0, 0x01) := by decide

theorem test_byte_hash_fnv1a_64 :
    (instOf (engineStep (one { busyWith .hash_fnv1a_64 0x2000 2 [] with acc := 0x8000000000000000 } [(0x2000, 0x80)]))).map
      (fun e => (e.acc, e.idx)) = some (0x800080000000D980, 1) := by decide

theorem test_accept_hash_fnv1a_32_opt :
    (instOf (step ((one (idle 0x1000 5)).withFetchWord 64 6))).map (fun e => (e.func, e.acc, e.idx, e.status)) =
      some (6, 2166136261, 0, 0x01) := by decide

theorem test_byte_hash_fnv1a_32_opt :
    (instOf (engineStep (one { busyWith .hash_fnv1a_32_opt 0x2000 2 [] with acc := 0x07C1F07C } [(0x2000, 0x61)]))).map
      (fun e => (e.acc, e.idx)) = some (0x534CFDA7, 1) := by decide

theorem test_accept_hash_fnv1a_64_opt :
    (instOf (step ((one (idle 0x1000 5)).withFetchWord 64 7))).map (fun e => (e.func, e.acc, e.idx, e.status)) =
      some (7, 14695981039346656037, 0, 0x01) := by decide

theorem test_byte_hash_fnv1a_64_opt :
    (instOf (engineStep (one { busyWith .hash_fnv1a_64_opt 0x2000 2 [] with acc := 0x07C1F07C1F07C1F0 } [(0x2000, 0x61)]))).map
      (fun e => (e.acc, e.idx)) = some (0x364D33E8BA2DE963, 1) := by decide

theorem test_accept_hash_sdbm_32 :
    (instOf (step ((one (idle 0x1000 5)).withFetchWord 64 8))).map (fun e => (e.func, e.acc, e.idx, e.status)) =
      some (8, 0, 0, 0x01) := by decide

theorem test_byte_hash_sdbm_32 :
    (instOf (engineStep (one { busyWith .hash_sdbm_32 0x2000 2 [] with acc := 0xFFFFFFFF } [(0x2000, 0x61)]))).map
      (fun e => (e.acc, e.idx)) = some (0xFFFF0022, 1) := by decide

theorem test_accept_hash_sdbm_64 :
    (instOf (step ((one (idle 0x1000 5)).withFetchWord 64 9))).map (fun e => (e.func, e.acc, e.idx, e.status)) =
      some (9, 0, 0, 0x01) := by decide

theorem test_byte_hash_sdbm_64 :
    (instOf (engineStep (one { busyWith .hash_sdbm_64 0x2000 2 [] with acc := 0x07C1F07C1F07C1F0 } [(0x2000, 0x61)]))).map
      (fun e => (e.acc, e.idx)) = some (0xD9364D9364D8BA71, 1) := by decide

/-! ### Digests, commands, the register port (95_test_vectors.md 2.1 to 2.5, 2.9, 2.10) -/

/-- The digests of `"abc"`. -/
theorem test_digests_abc :
    [Instr.hash_djb2_32, .hash_djb2_64, .hash_djb2_32_xor, .hash_djb2_64_xor, .hash_fnv1a_32, .hash_fnv1a_64,
      .hash_fnv1a_32_opt, .hash_fnv1a_64_opt, .hash_sdbm_32, .hash_sdbm_64].map
        (fun i => hashWord i [0x61, 0x62, 0x63]) =
      [0x0B885C8B, 0x0B885C8B, 0x0B873285, 0x0B873285, 0x1A47E90B, 0xE71FA2190541574B, 0x1A47E90B,
        0xE71FA2190541574B, 0x3025F862, 0x613025F862] := by decide

/-- A byte of 0xFF enters as 255, not sign-extended (R108). -/
theorem test_byte_not_sign_extended : digestDjb2_32 [0xFF] = 0x0002B6A4 := by decide

/-- Rows of 2.9 that end at the `CMD` write: `STATUS` after it. -/
theorem test_cmd_errors :
    [(0, 1, 0x0), (0, 0xFFFFFFFFFFFFFFFF, 0x9), (0, 1, 0xA), (0x1000, 5, 0x1F), (0xFFFFFFFFFFFFFFFF, 2, 0x0),
      (2, 0xFFFFFFFFFFFFFFFF, 0x0), (0xFFFFFFFFFFFFFFFF, 1, 0x0), (1, 0xFFFFFFFFFFFFFFFF, 0x0), (0, 0, 0x5)].map
        (fun (r : Word × Word × Word) => (instOf (regWrite 2 r.2.2 (one (idle r.1 r.2.1)))).map (·.status)) =
      [some 0x16, some 0x16, some 0x26, some 0x26, some 0x16, some 0x16, some 0x01, some 0x01, some 0x01] := by
  decide

/-- The completion step of the empty message at `SRC` = 0 (2.9). -/
theorem test_completion :
    (instOf (engineStep (one (busyWith .hash_fnv1a_64 0 0 [])))).map (fun e => (e.status, e.digest, e.reads)) =
      some (0x02, 0xCBF29CE484222325, []) := by decide

/-- The fault step (P5): `STATUS` 0x16, `DIGEST` untouched. -/
theorem test_fault_step :
    (instOf (engineStep (one { busyWith .hash_sdbm_64 0x1000 5 [] with digest := 7 } helloMem [] faulty))).map
      (fun e => (e.status, e.digest, e.idx)) = some (0x16, 7, 0) := by decide

/-- `WR SRC` at `AW` = 64 and at `AW` = 32 (2.10). -/
theorem test_write_src :
    (instOf (regWrite 0 0xDEADBEEF00000001 (one Instance.reset))).map (regValue 0) = some 0xDEADBEEF00000001 ∧
    (instOf (regWrite 0 0xDEADBEEF00000001 (one Instance.reset [] [] { aw := 32, memFault := [] }))).map
      (regValue 0) = some 0x0000000000000001 := by decide

/-- After reset every index reads 0 (2.10). -/
theorem test_reset_reads : (List.range 8).map (fun i => regValue (BitVec.ofNat 3 i) State.reset.inst) =
    [0, 0, 0, 0, 0, 0, 0, 0] := by decide

/-- With no turn listed, a busy engine moves before a host with lines; then nothing moves. -/
theorem test_default_move :
    (instOf (step (one (busyWith .hash_sdbm_32 0x1000 5 [] [.rd 3]) helloMem))).map (·.idx) = some 1 ∧
    step State.reset = .next State.reset := ⟨by decide, by rfl⟩

/-! ### Witnesses: states and operands that meet the hypotheses of the statements -/

/-- Ready states with a legal command: after reset, after a completed and after a failed command. -/
theorem witness_ready : (one (idle 0 0)).ready ∧ (one (idle 0x1000 5 0x02)).ready ∧ (one (idle 0 1 0x16)).ready ∧
    (one (idle 0 1 0x26)).ready := by
  refine ⟨?_, ?_, ?_, ?_⟩ <;> exact ⟨by decide, by simp [legalStatus, one, idle, State.inst], by decide⟩

/-- Valid references at the boundaries of R58 and R59. -/
theorem witness_validReference :
    validReference 64 0 0 ∧ validReference 64 0xFFFFFFFFFFFFFFFF 1 ∧ validReference 64 1 0xFFFFFFFFFFFFFFFF ∧
    validReference 1 1 1 := by decide

/-- Invalid references at the boundaries of R58 and R59. -/
theorem witness_not_validReference :
    ¬ validReference 64 0 1 ∧ ¬ validReference 64 0xFFFFFFFFFFFFFFFF 2 ∧ ¬ validReference 64 2 0xFFFFFFFFFFFFFFFF ∧
    ¬ validReference 1 1 2 := by decide

/-- `OperationContract`, acceptance and refusal, each with its reference. -/
theorem witness_OperationContract_accept :
    (one (idle 0xFFFFFFFFFFFFFFFF 1)).ready ∧
    validReference (one (idle 0xFFFFFFFFFFFFFFFF 1)).cfg.aw (one (idle 0xFFFFFFFFFFFFFFFF 1)).inst.src
      (one (idle 0xFFFFFFFFFFFFFFFF 1)).inst.len ∧
    (one (idle 0xFFFFFFFFFFFFFFFF 2)).ready ∧
    ¬ validReference (one (idle 0xFFFFFFFFFFFFFFFF 2)).cfg.aw (one (idle 0xFFFFFFFFFFFFFFFF 2)).inst.src
      (one (idle 0xFFFFFFFFFFFFFFFF 2)).inst.len := by
  refine ⟨⟨by decide, by simp [legalStatus, one, idle, State.inst, Instance.reset], by decide⟩, by decide,
    ⟨by decide, by simp [legalStatus, one, idle, State.inst, Instance.reset], by decide⟩, by decide⟩

/-- The last byte of a message at the top of the source space, for every operation. -/
theorem witness_OperationContract_byte (i : Instr) :
    (one (busyWith i 0xFFFFFFFFFFFFFFFE 2 [0x61])).atByte (funcOf i) ∧
    memAnswer Config.standard [] (0xFFFFFFFFFFFFFFFE + 1) = some 0 := by
  cases i <;> exact ⟨⟨by decide, by decide, by decide, by decide, by decide⟩, by decide⟩

/-- A byte whose read faults, for every operation. -/
theorem witness_OperationContract_fault (i : Instr) :
    (one (busyWith i 0x1000 5 []) helloMem [] faulty).atByte (funcOf i) ∧
    memAnswer faulty helloMem (0x1000 + 0) = none := by
  cases i <;> exact ⟨⟨by decide, by decide, by decide, by decide, by decide⟩, by decide⟩

/-- A message read to its end, for every operation; also the empty message. -/
theorem witness_OperationContract_complete (i : Instr) :
    (one (busyWith i 0x1000 1 [0x68])).inst.status = 0x01 ∧ (one (busyWith i 0x1000 1 [0x68])).inst.func = funcOf i ∧
    (one (busyWith i 0x1000 1 [0x68])).inst.idx = (one (busyWith i 0x1000 1 [0x68])).inst.len ∧
    (one (busyWith i 0 0 [])).inst.idx = (one (busyWith i 0 0 [])).inst.len := by
  cases i <;> decide

/-- Messages of the lengths the DJB2 and SDBM rules speak of. -/
theorem witness_message_lengths :
    ([] : List Byte).length ≤ 2 ∧ [0xFF, 0xFF, (0xFF : Byte)].length ≤ 3 ∧ (List.replicate 4 (0xFF : Byte)).length = 4 ∧
    (List.replicate 10 (0xFF : Byte)).length ≤ 10 ∧ (List.replicate 11 (0 : Byte)).length = 11 := by decide

/-- Terms of the shift sums in another order. -/
theorem witness_shift_terms (t : Word32) :
    [shlW t 24, t, shlW t 1, shlW t 4, shlW t 7, shlW t 8].Perm
      [t, shlW t 1, shlW t 4, shlW t 7, shlW t 8, shlW t 24] := by
  exact List.perm_append_comm (l₁ := [shlW t 24]) (l₂ := [t, shlW t 1, shlW t 4, shlW t 7, shlW t 8])

/-- Terms of the 64-bit shift sum in another order. -/
theorem witness_shift_terms_64 (t : Word) :
    [shlW t 40, t, shlW t 1, shlW t 4, shlW t 5, shlW t 7, shlW t 8].Perm
      [t, shlW t 1, shlW t 4, shlW t 5, shlW t 7, shlW t 8, shlW t 40] := by
  exact List.perm_append_comm (l₁ := [shlW t 40]) (l₂ := [t, shlW t 1, shlW t 4, shlW t 5, shlW t 7, shlW t 8])

/-- CommandTableRows, DecodeIsTotalByFields: words of each clause at its boundaries. -/
theorem witness_DecodeIsTotalByFields :
    decode 0x9 = .operation .hash_sdbm_64 ∧ (0x10 : Word).toNat / 16 ≠ 0 ∧ (0xFFFFFFFFFFFFFFFF : Word).toNat / 16 ≠ 0 ∧
    (0xA : Word).toNat / 16 = 0 ∧ 10 ≤ (0xA : Word).toNat % 16 ∧ (0xF : Word).toNat / 16 = 0 ∧
    10 ≤ (0xF : Word).toNat % 16 ∧ (0x9 : Word).toNat / 16 = 0 ∧ (0x9 : Word).toNat % 16 < 10 ∧
    (0x0 : Word).toNat % 16 < 10 := by decide

/-- ReservedCommandWordsAreIllegal and the other statements on illegal commands: words of both reasons. -/
theorem witness_illegal_words :
    (∀ i, decode 0xA ≠ .operation i) ∧ (∀ i, decode 0xF ≠ .operation i) ∧ (∀ i, decode 0x10 ≠ .operation i) ∧
    (∀ i, decode 0xFFFFFFFFFFFFFFFF ≠ .operation i) ∧ decode 0xF = .illegalFunc ∧ decode 0x10 = .illegalZeroField := by
  refine ⟨?_, ?_, ?_, ?_, by decide, by decide⟩ <;> intro i <;> cases i <;> decide

/-- StepRunsTheCommandWritten: both clauses. -/
theorem witness_StepRunsTheCommandWritten :
    (one (idle 0x1000 5 0x00 [.wr 2 0x9, .wait]) helloMem [.host 0, .engine 0]).turns = .host 0 :: [.engine 0] ∧
    (one (idle 0x1000 5 0x00 [.wr 2 0x9, .wait]) helloMem [.host 0, .engine 0]).insts[0]? =
      some (idle 0x1000 5 0x00 [.wr 2 0x9, .wait]) ∧
    decode 0x9 = .operation .hash_sdbm_64 ∧
    State.reset.active < State.reset.insts.length ∧ 0x9 % 2 ^ 64 < 2 ^ 64 ∧
    decodeTableWord 64 0x9 = some .hash_sdbm_64 := by decide

/-- PrimitivesReduceModuloWidth, TruncationLaw: the conditions on operands and shift counts. -/
theorem witness_arith :
    (0x00000005 : Word32).toNat < (0x00000007 : Word32).toNat ∧ (31 : Nat) < 32 ∧ (63 : Nat) < 64 ∧ 8 ≤ (8 : Nat) := by
  decide

/-- DigestIsTheFold: a 32-bit operation. -/
theorem witness_DigestIsTheFold : widthOf (funcOf .hash_sdbm_32) = 32 := by decide

/-- ResetRegisterValues, InvariantHoldsAtReset: the instance that reset lists. -/
theorem witness_reset_inst : Instance.reset ∈ State.reset.insts := by decide

/-- SrcAndLenStoreLowBits, CommandRegisterIsAnEvent, WritesWhileBusyAreDropped: an idle and a busy state, and events
that answer a next state. -/
theorem witness_port :
    (one (idle 0x1000 5)).active < (one (idle 0x1000 5)).insts.length ∧ (one (idle 0x1000 5)).cfg.wf = true ∧
    (one (idle 0x1000 5)).inst.busy = false ∧ (one (busyWith .hash_sdbm_32 0x1000 5 [])).inst.busy = true ∧
    (∃ t, regWrite 2 0x8 (one (idle 0x1000 5)) = .next t) ∧
    (∃ t, engineStep (one (busyWith .hash_sdbm_32 0x1000 5 [])) = .next t) := by
  exact ⟨by decide, by decide, by decide, by decide, ⟨_, rfl⟩, ⟨_, rfl⟩⟩

/-- ReadOnlyAndReservedRegisters: the indices at the ends of the range. -/
theorem witness_ReadOnlyAndReservedRegisters : 3 ≤ (3 : RegIndex).toNat ∧ 3 ≤ (7 : RegIndex).toNat := by decide

/-- StatusFieldsAndWriters, StatusTakesFiveValues: each of the five words. -/
theorem witness_legalStatus : 0x00 ∈ legalStatus ∧ 0x01 ∈ legalStatus ∧ 0x02 ∈ legalStatus ∧ 0x16 ∈ legalStatus ∧
    0x26 ∈ legalStatus := by simp [legalStatus]

/-- StatusFieldsAndWriters, StatusTakesFiveValues: steps that change `STATUS`, by a reset, a command, an engine step. -/
theorem witness_status_steps :
    (∃ t e', step (one (idle 0 0 0x02) [] [.reset]) = .next t ∧ t.insts[0]? = some e' ∧ e'.status ≠ 0x02) ∧
    (∃ t e', step (one (idle 0 0 0x02 [.wr 2 0x10]) [] [.host 0]) = .next t ∧ t.insts[0]? = some e' ∧
      e'.status ≠ 0x02) ∧
    (∃ t e', step (one (busyWith .hash_sdbm_32 0 0 []) [] [.engine 0]) = .next t ∧ t.insts[0]? = some e' ∧
      e'.status ≠ 0x01) := by
  refine ⟨⟨_, _, rfl, rfl, by decide⟩, ⟨_, _, rfl, rfl, by decide⟩, ⟨_, _, rfl, rfl, by decide⟩⟩

/-- DigestWrittenAtCompletionOnly: steps that change `DIGEST`, by a reset and by a completion. -/
theorem witness_DigestWrittenAtCompletionOnly :
    (∃ t e', step (one { idle 0 0 0x02 with digest := 7 } [] [.reset]) = .next t ∧ t.insts[0]? = some e' ∧
      e'.digest ≠ 7) ∧
    (∃ t e', step (one (busyWith .hash_fnv1a_32 0 0 []) [] [.engine 0]) = .next t ∧ t.insts[0]? = some e' ∧
      e'.digest ≠ 0) ∧
    (one (busyWith .hash_fnv1a_32 0 0 [])).inst.busy = true ∧
    opOfFunc (one (busyWith .hash_fnv1a_32 0 0 [])).inst.func = some .hash_fnv1a_32 ∧
    (one (busyWith .hash_fnv1a_32 0 0 [])).inst.idx = (one (busyWith .hash_fnv1a_32 0 0 [])).inst.len := by
  refine ⟨⟨_, _, rfl, rfl, by decide⟩, ⟨_, _, rfl, rfl, by decide⟩, by decide, by decide, by decide⟩

/-- A state with one running instance meets the invariant, piece by piece. -/
theorem inv_busy (i : Instr) (e : Instance) (m : Memory) (ts : List Turn) (c : Config)
    (hm : c.wf = true ∧ Memory.wf m = true ∧ Memory.inSpace c.aw m = true)
    (hr : e.src.toNat < 2 ^ c.aw ∧ e.len.toNat < 2 ^ c.aw ∧ e.idx.toNat < 2 ^ c.aw) (hs : e.status = 0x01)
    (ho : opOfFunc e.func = some i) (hrun : e.running c.aw i) : (one e m ts c).Inv := by
  refine ⟨hm.1, Nat.zero_lt_one, hm.2.1, hm.2.2, fun x hx => ?_⟩
  obtain rfl := List.mem_singleton.mp hx
  exact ⟨⟨hr.1, hr.2.1, hr.2.2, by rw [hs]; simp [legalStatus]⟩, fun _ => ⟨i, ho, hrun⟩⟩

/-- AccumulatorHiddenAndReloaded: a running 32-bit command, and an acceptance from another `ACC`. -/
theorem witness_AccumulatorHiddenAndReloaded :
    (one (busyWith .hash_sdbm_32 0x1000 5 [0x68, 0x65]) helloMem).Inv ∧
    (busyWith .hash_sdbm_32 0x1000 5 [0x68, 0x65]).busy = true ∧
    (busyWith .hash_sdbm_32 0x1000 5 [0x68, 0x65]).func.getLsbD 0 = false ∧
    decode 0x8 = .operation .hash_sdbm_32 ∧
    (∃ t, regWrite 2 0x8 ((one (idle 0x1000 5)).setInst { (one (idle 0x1000 5)).inst with acc := 0xFF }) =
      .next t) := by
  exact ⟨inv_busy .hash_sdbm_32 _ _ _ _ (by decide) (by decide) rfl (by decide) (by decide), by decide, by decide, by decide,
    ⟨_, rfl⟩⟩

/-- IdxCountsBytesConsumed: steps that change `IDX`, by acceptance and by a byte step. -/
theorem witness_IdxCountsBytesConsumed :
    (one { idle 0x1000 5 0x02 [.wr 2 0x0] with idx := 3 } helloMem [.host 0]).Inv ∧
    (one (busyWith .hash_sdbm_32 0x1000 5 [0x68, 0x65]) helloMem [.engine 0]).Inv ∧
    (∃ t e', step (one { idle 0x1000 5 0x02 [.wr 2 0x0] with idx := 3 } helloMem [.host 0]) = .next t ∧
      t.insts[0]? = some e' ∧ e'.busy = true ∧ e'.idx ≠ 3) ∧
    (∃ t e', step (one (busyWith .hash_sdbm_32 0x1000 5 [0x68, 0x65]) helloMem [.engine 0]) = .next t ∧
      t.insts[0]? = some e' ∧ e'.idx ≠ 2) := by
  refine ⟨⟨by decide, by decide, by decide, by decide, fun e he => ?_⟩,
    inv_busy .hash_sdbm_32 _ _ _ _ (by decide) (by decide) rfl (by decide) (by decide),
    ⟨_, _, rfl, rfl, by decide, by decide⟩, ⟨_, _, rfl, rfl, by decide⟩⟩
  obtain rfl := List.mem_singleton.mp he
  exact ⟨⟨by decide, by decide, by decide, by simp [legalStatus, idle]⟩, fun hb => absurd hb (by decide)⟩

/-- WritesWhileBusyAreDropped: a busy instance whose host writes, and one whose host reads. -/
theorem witness_WritesWhileBusyAreDropped :
    (one (busyWith .hash_sdbm_32 0x1000 5 [] [.wr 1 0]) [] [.host 0]).turns = .host 0 :: [] ∧
    (busyWith .hash_sdbm_32 0x1000 5 [] [.wr 1 0]).busy = true ∧
    (busyWith .hash_sdbm_32 0x1000 5 [] [.wr 1 0]).todo = .wr 1 0 :: [] ∧
    (busyWith .hash_sdbm_32 0x1000 5 [] [.rd 3]).todo = .rd 3 :: [] := by decide

/-- WaitAndHashLines: a host that waits while busy, and one that sees `DONE`. -/
theorem witness_WaitAndHashLines :
    (one (busyWith .hash_sdbm_32 0 0 [] [.wait, .rd 4]) [] [.host 0]).insts[0]? =
      some (busyWith .hash_sdbm_32 0 0 [] [.wait, .rd 4]) ∧
    (busyWith .hash_sdbm_32 0 0 [] [.wait, .rd 4]).todo = .wait :: [.rd 4] ∧
    (idle 0 0 0x02 [.wait, .rd 4]).todo = .wait :: [.rd 4] := by decide

/-- InvalidReferenceRaisesInvalidInput: an absent reference, one past the top, an empty message. -/
theorem witness_InvalidReferenceRaisesInvalidInput :
    ((one (idle 0 1)).inst.len ≠ 0 ∧ (one (idle 0 1)).inst.src = 0) ∧
    ((one (idle 2 0xFFFFFFFFFFFFFFFF)).inst.len ≠ 0 ∧
      (one (idle 2 0xFFFFFFFFFFFFFFFF)).inst.src.toNat + (one (idle 2 0xFFFFFFFFFFFFFFFF)).inst.len.toNat > 2 ^ 64) ∧
    (one (idle 0 0)).inst.len = 0 := by decide

/-- CommandFrame: a command that is dropped, one that is refused, one that is accepted. -/
theorem witness_CommandFrame :
    (∃ t, exec .hash_sdbm_32 (one (busyWith .hash_djb2_32 0 0 [])) = .next t) ∧
    (∃ t, exec .hash_sdbm_32 (one (idle 0 1)) = .next t) ∧ (∃ t, exec .hash_sdbm_32 (one (idle 0 0)) = .next t) := by
  exact ⟨⟨_, rfl⟩, ⟨_, rfl⟩, ⟨_, rfl⟩⟩

/-- ErrorsArePrecise, ReadsOfACommand: an error at the `CMD` write, and one at a `fault` answer. -/
theorem witness_ErrorsArePrecise :
    (∃ t, regWrite 2 0x0 (one (idle 0 1)) = .next t ∧ statusErr t.inst.status = true ∧ t.inst.status = 0x16) ∧
    (∃ t, regWrite 2 0xA (one (idle 0 1)) = .next t ∧ statusErr t.inst.status = true) ∧
    (one (busyWith .hash_sdbm_32 0x1000 5 []) helloMem [.engine 0] faulty).Inv ∧
    (one (busyWith .hash_sdbm_32 0x1000 5 []) helloMem [.engine 0] faulty).inst.busy = true ∧
    (∃ t, engineStep (one (busyWith .hash_sdbm_32 0x1000 5 []) helloMem [.engine 0] faulty) = .next t ∧
      statusErr t.inst.status = true ∧ t.inst.status = 0x16) := by
  exact ⟨⟨_, rfl, by decide, by decide⟩, ⟨_, rfl, by decide⟩,
    inv_busy .hash_sdbm_32 _ _ _ _ (by decide) (by decide) rfl (by decide) (by decide), by decide,
    ⟨_, rfl, by decide, by decide⟩⟩

/-- RecoveryAfterAnError: both error codes, with a valid and an invalid reference. -/
theorem witness_RecoveryAfterAnError :
    (one (idle 0 0 0x16)).inst.status = 0x16 ∧ (one (idle 0 1 0x26)).inst.status = 0x26 ∧
    validReference 64 (one (idle 0 0 0x16)).inst.src (one (idle 0 0 0x16)).inst.len ∧
    ¬ validReference 64 (one (idle 0 1 0x26)).inst.src (one (idle 0 1 0x26)).inst.len := by decide

/-- ByteStepFoldsOneByte, FaultStepRaisesInvalidInput: the number names the operation; `MemFault` empty. -/
theorem witness_engine_ops : opOfFunc 0 = some .hash_djb2_32 ∧ opOfFunc 9 = some .hash_sdbm_64 ∧
    Config.standard.memFault = [] := by decide

/-- EngineStepFrame: an idle engine, a byte step, a fault step, a completion step. -/
theorem witness_EngineStepFrame :
    (∃ t, engineStep (one (idle 0 0)) = .next t) ∧
    (∃ t, engineStep (one (busyWith .hash_sdbm_32 0x1000 5 []) helloMem) = .next t) ∧
    (∃ t, engineStep (one (busyWith .hash_sdbm_32 0x1000 5 []) helloMem [] faulty) = .next t) ∧
    (∃ t, engineStep (one (busyWith .hash_sdbm_32 0 0 [])) = .next t) := by
  exact ⟨⟨_, rfl⟩, ⟨_, rfl⟩, ⟨_, rfl⟩, ⟨_, rfl⟩⟩

/-- The state of the run witnesses: `hash_sdbm_64` over the first two bytes of `"hello"`, then `n` engine turns. -/
def runState (c : Config) (m : Memory) (len : Word) (n : Nat) : State :=
  one (idle 0x1000 len 0x00 [.wr 2 0x9, .wait]) m (.host 0 :: (engineTurns 0 n ++ [])) c

/-- RunOfOneCommand: a message of two bytes, and the empty one. -/
theorem witness_RunOfOneCommand :
    (runState Config.standard helloMem 2 3).ready ∧ (runState Config.standard helloMem 2 3).inst.len.toNat = 2 ∧
    validReference 64 0x1000 2 ∧
    (∀ (j : Nat) (h : j < [(0x68 : Byte), 0x65].length),
      memAnswer Config.standard helloMem (0x1000 + j) = some [(0x68 : Byte), 0x65][j]) ∧
    (runState Config.standard helloMem 2 3).inst.todo = .wr 2 0x9 :: [.wait] ∧
    (runState Config.standard helloMem 2 3).turns = .host 0 :: (engineTurns 0 (2 + 1) ++ []) ∧
    (runState Config.standard helloMem 0 1).ready ∧ (runState Config.standard helloMem 0 1).inst.len.toNat = 0 := by
  exact ⟨⟨by decide, by simp [legalStatus, runState, one, idle, State.inst], by decide⟩, by decide, by decide, by decide,
    by decide, rfl, ⟨by decide, by simp [legalStatus, runState, one, idle, State.inst], by decide⟩, by decide⟩

/-- RunThatMeetsAFault: the second of five bytes faults. -/
theorem witness_RunThatMeetsAFault :
    let c : Config := { aw := 64, memFault := [{ lo := 0x1001, size := 1 }] }
    (runState c helloMem 5 2).ready ∧ [(0x68 : Byte)].length < (runState c helloMem 5 2).inst.len.toNat ∧
    (∀ (j : Nat) (h : j < [(0x68 : Byte)].length), memAnswer c helloMem (0x1000 + j) = some [(0x68 : Byte)][j]) ∧
    memAnswer c helloMem (0x1000 + 1) = none ∧
    (runState c helloMem 5 2).turns = .host 0 :: (engineTurns 0 (1 + 1) ++ []) := by
  exact ⟨⟨by decide, by simp [legalStatus, runState, one, idle, State.inst], by decide⟩, by decide, by decide, by decide,
    rfl⟩

/-- CommandEndsWithinLenPlusOneSteps: three bytes left, four turns listed. -/
theorem witness_CommandEndsWithinLenPlusOneSteps :
    (one (busyWith .hash_sdbm_32 0x1000 5 [0x68, 0x65]) helloMem (engineTurns 0 4 ++ [])).Inv ∧
    (one (busyWith .hash_sdbm_32 0x1000 5 [0x68, 0x65]) helloMem (engineTurns 0 4 ++ [])).turns =
      engineTurns 0 (5 - 2 + 1) ++ [] ∧
    (one (busyWith .hash_sdbm_32 0x1000 5 [0x68, 0x65]) helloMem).inst.busy = true ∧
    (one (busyWith .hash_sdbm_32 0x1000 5 [0x68, 0x65]) helloMem).inst.len.toNat = 5 ∧
    (one (busyWith .hash_sdbm_32 0x1000 5 [0x68, 0x65]) helloMem).inst.idx.toNat = 2 :=
  ⟨inv_busy .hash_sdbm_32 _ _ _ _ (by decide) (by decide) rfl (by decide) (by decide), by decide⟩

/-- EveryStepKeepsTheInvariant, StepNeverStops: every kind of turn, at the boundaries, answers a next state. -/
theorem witness_turns :
    (one (busyWith .hash_sdbm_32 0x1000 5 []) helloMem
      [.host 0, .engine 0, .reset, .memWrite 0 1, .memWrite 0xFFFFFFFFFFFFFFFF 1]).Inv ∧
    (one (busyWith .hash_sdbm_32 0x1000 5 []) helloMem
      [.host 0, .engine 0, .reset, .memWrite 0 1, .memWrite 0xFFFFFFFFFFFFFFFF 1]).turnsOk ∧
    (∃ t, step (one (busyWith .hash_sdbm_32 0x1000 5 []) helloMem) = .next t) ∧
    (∃ t, step (one (idle 0 0) [] [.memWrite 0xFFFFFFFFFFFFFFFF 1]) = .next t) := by
  exact ⟨inv_busy .hash_sdbm_32 _ _ _ _ (by decide) (by decide) rfl (by decide) (by decide), by decide, ⟨_, rfl⟩,
    ⟨_, rfl⟩⟩

/-- ReadsOfACommand, DigestIsFoldOfBytesAsAnswered: the step that completes, for five bytes and for none, and one that
goes on. -/
theorem witness_ReadsOfACommand :
    (one (busyWith .hash_fnv1a_64 0x1000 5 msgHello)).Inv ∧ (one (busyWith .hash_fnv1a_64 0 0 [])).Inv ∧
    (one (busyWith .hash_sdbm_32 0x1000 5 [0x68, 0x65]) helloMem).Inv ∧
    (∃ t, engineStep (one (busyWith .hash_fnv1a_64 0x1000 5 msgHello)) = .next t ∧ t.inst.status = 0x02) ∧
    (∃ t, engineStep (one (busyWith .hash_fnv1a_64 0 0 [])) = .next t ∧ t.inst.status = 0x02) ∧
    (one (busyWith .hash_fnv1a_64 0 0 [])).inst.len = 0 ∧
    (∃ t, engineStep (one (busyWith .hash_sdbm_32 0x1000 5 [0x68, 0x65]) helloMem) = .next t ∧ t.inst.busy = true) := by
  exact ⟨inv_busy .hash_fnv1a_64 _ _ _ _ (by decide) (by decide) rfl (by decide) (by decide),
    inv_busy .hash_fnv1a_64 _ _ _ _ (by decide) (by decide) rfl (by decide) (by decide),
    inv_busy .hash_sdbm_32 _ _ _ _ (by decide) (by decide) rfl (by decide) (by decide),
    ⟨_, rfl, by decide⟩, ⟨_, rfl, by decide⟩, by decide, ⟨_, rfl, by decide⟩⟩

/-- OnlyOtherAgentsWriteMemory: a write by another agent, in a canonical memory. -/
theorem witness_OnlyOtherAgentsWriteMemory :
    (∃ t, step (one (idle 0 0) helloMem [.memWrite 0x1000 0]) = .next t) ∧ Memory.wf helloMem = true ∧
    (one (idle 0 0) helloMem [.memWrite 0x1000 0]).turns.head? = some (.memWrite 0x1000 0) := by
  exact ⟨⟨_, rfl⟩, by decide, by decide⟩

/-- MemoryAnswers: a byte answered, listed and unlisted; a fault at both ends of a range. -/
theorem witness_MemoryAnswers :
    memAnswer Config.standard helloMem 0x1000 = some 0x68 ∧ memAnswer Config.standard helloMem 0xFFF = some 0 ∧
    memAnswer { aw := 64, memFault := [{ lo := 0x1000, size := 2 }] } helloMem 0x1001 = none ∧
    memAnswer { aw := 64, memFault := [{ lo := 0x1000, size := 2 }] } helloMem 0x1002 = some 0x6C := by decide

/-- AddressesNeverWrap: the last byte of the source space. -/
theorem witness_AddressesNeverWrap :
    (one (busyWith .hash_sdbm_32 0xFFFFFFFFFFFFFFFE 2 [0x00])).Inv ∧
    (busyWith .hash_sdbm_32 0xFFFFFFFFFFFFFFFE 2 [0x00]).busy = true ∧
    (busyWith .hash_sdbm_32 0xFFFFFFFFFFFFFFFE 2 [0x00]).idx.toNat <
      (busyWith .hash_sdbm_32 0xFFFFFFFFFFFFFFFE 2 [0x00]).len.toNat :=
  ⟨inv_busy .hash_sdbm_32 _ _ _ _ (by decide) (by decide) rfl (by decide) (by decide), by decide⟩

/-- Two instances of the block. -/
def two (e e' : Instance) (ts : List Turn := []) : State :=
  { cfg := Config.standard, insts := [e, e'], active := 0, mem := helloMem, turns := ts, fresh := 0 }

/-- InstancesShareNoState: a turn of the second instance's host and of its engine agent, and another machine with the
same second instance. -/
theorem witness_InstancesShareNoState :
    (∃ t, takeTurn (.host 1) (two (idle 0 0) (idle 0x1000 5 0x00 [.wr 2 0x9])) = .next t) ∧
    (∃ t, takeTurn (.engine 1) (two (idle 0 0) (busyWith .hash_sdbm_32 0x1000 5 [])) = .next t) ∧
    (two (idle 7 7) (busyWith .hash_sdbm_32 0x1000 5 [])).insts[1]? =
      (two (idle 0 0) (busyWith .hash_sdbm_32 0x1000 5 [])).insts[1]? := by
  exact ⟨⟨_, rfl⟩, ⟨_, rfl⟩, by decide⟩

/-- IdleHiddenStateIsUnobservable: two states that differ in hidden registers only, and step; and two that stop. -/
theorem witness_IdleHiddenStateIsUnobservable :
    (one { idle 0x1000 5 0x00 [.wr 2 0x9] with acc := 1, idx := 2, func := 3 }).hideIdle =
      (one (idle 0x1000 5 0x00 [.wr 2 0x9])).hideIdle ∧
    (∃ t, step (one (idle 0x1000 5 0x00 [.wr 2 0x9])) = .next t) ∧
    step (one (idle 0 0) [] [.host 1]) = .fault .illFormedTurn := by
  exact ⟨by decide, ⟨_, rfl⟩, rfl⟩

/-- ResetEventFromAnyState: a reset while a command runs. -/
theorem witness_ResetEventFromAnyState :
    (two (idle 0 0) (busyWith .hash_sdbm_32 0x1000 5 [0x68]) [.reset]).turns = .reset :: [] ∧
    (∃ t e', step (two (idle 0 0) (busyWith .hash_sdbm_32 0x1000 5 [0x68]) [.reset]) = .next t ∧
      t.insts[1]? = some e') := by
  exact ⟨rfl, ⟨_, _, rfl, rfl⟩⟩

/-- NothingRunsUntilACommandIsWritten: from reset values, the write of `CMD` that makes `STATUS` non-zero. -/
theorem witness_NothingRunsUntilACommandIsWritten :
    (∀ e ∈ (one (idle 0 0 0x00 [.wr 2 0x4])).insts, e.status = 0) ∧
    (∃ t e', step (one (idle 0 0 0x00 [.wr 2 0x4])) = .next t ∧ t.insts[0]? = some e' ∧ e'.status ≠ 0) := by
  exact ⟨by simp [one, idle], ⟨_, _, rfl, rfl, by decide⟩⟩

/-- IdleBlockKeepsItsRegisters: an idle instance while nothing, a read, a write and a reset happen. -/
theorem witness_IdleBlockKeepsItsRegisters :
    (idle 0x1000 5 0x02).busy = false ∧
    (∃ t e', step (one (idle 0x1000 5 0x02) [] [.engine 0]) = .next t ∧ t.insts[0]? = some e') ∧
    (∃ t e', step (one (idle 0x1000 5 0x02 [.rd 4]) [] [.host 0]) = .next t ∧ t.insts[0]? = some e') ∧
    (∃ t e', step (one (idle 0x1000 5 0x02 [.wr 0 1]) [] [.host 0]) = .next t ∧ t.insts[0]? = some e') ∧
    (∃ t e', step (one (idle 0x1000 5 0x02) [] [.reset]) = .next t ∧ t.insts[0]? = some e') := by
  exact ⟨by decide, ⟨_, _, rfl, rfl⟩, ⟨_, _, rfl, rfl⟩, ⟨_, _, rfl, rfl⟩, ⟨_, _, rfl, rfl⟩⟩

end Sys2Proof.Tests
end

section
/-!
PROOF. The arithmetic primitives against the integers (R8, R100, R102) and the limits of XOR (R104).
-/

namespace Sys2Proof.Proofs

open Sys2Proof Sys2Proof.Machine

/-- R8, over the integers: the unsigned difference before reduction may be negative. -/
theorem natCast_toNat_subW {w : Nat} (a b : BitVec w) :
    ((subW a b).toNat : Int) = ((a.toNat : Int) - b.toNat) % (2 ^ w : Nat) := by
  have hb : b.toNat ≤ 2 ^ w := b.isLt.le
  have hshift : ((2 ^ w - b.toNat + a.toNat : Nat) : Int) = (a.toNat - b.toNat) + (2 ^ w : Nat) := by omega
  rw [toNat_subW, Int.natCast_mod, hshift, Int.add_emod_right]

/-- R102: a difference below zero wraps by exactly one modulus. -/
theorem toNat_subW_add_of_lt {w : Nat} {a b : BitVec w} (h : a.toNat < b.toNat) :
    (subW a b).toNat + b.toNat = a.toNat + 2 ^ w := by
  have hb : b.toNat < 2 ^ w := b.isLt
  have hno_wrap : 2 ^ w - b.toNat + a.toNat < 2 ^ w := by omega
  rw [toNat_subW, Nat.mod_eq_of_lt hno_wrap]
  omega

/-- R104: a zero-extended byte has no bit at or above bit 8, so XOR with it leaves those bits alone. -/
theorem getLsbD_xorW_setWidth_byte {w : Nat} (a : BitVec w) (b : Byte) {i : Nat} (hi : 8 ≤ i) :
    (xorW a (b.setWidth w)).getLsbD i = a.getLsbD i := by
  have hzero : (b.setWidth w).getLsbD i = false := by
    rw [BitVec.getLsbD_setWidth, BitVec.getLsbD_of_ge b i hi, Bool.and_false]
  rw [getLsbD_xorW, hzero, Bool.xor_false]

/-- R104: `1 xor (1 + 0) = 0`, but `(1 xor 1) + (1 xor 0) = 1`, already at 32 bits. -/
theorem xorW_not_distrib_addW_32 : ∃ a b c : Word32, xorW a (addW b c) ≠ addW (xorW a b) (xorW a c) :=
  ⟨1, 1, 0, by decide⟩

/-- R104: the same operands at 64 bits. -/
theorem xorW_not_distrib_addW_64 : ∃ a b c : Word, xorW a (addW b c) ≠ addW (xorW a b) (xorW a c) :=
  ⟨1, 1, 0, by decide⟩

/-- Settles O15: the value lemmas of the primitives and conversions, clause by clause. -/
theorem primitivesReduceModuloWidth : Obligations.PrimitivesReduceModuloWidth := by
  unfold Obligations.PrimitivesReduceModuloWidth
  refine ⟨?add, ?sub, ?subWrap, ?subExample, ?mul, ?shl, ?xorBits, ?xorByte32, ?xorByte64, ?noDistrib32,
    ?noDistrib64, ?zextByte, ?zext, ?trunc⟩
  case add => exact fun _ => toNat_addW
  case sub => exact fun _ => natCast_toNat_subW
  case subWrap => exact fun _ _ _ => toNat_subW_add_of_lt
  case subExample => decide
  case mul => exact fun _ => toNat_mulW
  case shl => exact fun _ a k _ => toNat_shlW a k
  case xorBits => exact fun _ => getLsbD_xorW
  case xorByte32 => exact fun a b _ => getLsbD_xorW_setWidth_byte a b
  case xorByte64 => exact fun a b _ => getLsbD_xorW_setWidth_byte a b
  case noDistrib32 => exact xorW_not_distrib_addW_32
  case noDistrib64 => exact xorW_not_distrib_addW_64
  case zextByte => exact fun b => ⟨toNat_zextByte32 b, toNat_zextByte64 b⟩
  case zext => exact toNat_zext64
  case trunc => exact toNat_trunc32

end Sys2Proof.Proofs
end

section
/-!
PROOF. `BUSY` and `DONE` after each of the block's own writes to `STATUS` (R25), whatever word it held.
-/

namespace Sys2Proof.Proofs

open Sys2Proof Sys2Proof.Machine

@[simp] theorem statusBusy_setBusy (b : Bool) (w : Word) : statusBusy (setBusy b w) = b := by
  simp only [statusBusy, setBusy, getLsbD_setBits]; cases b <;> rfl

@[simp] theorem statusBusy_setDone (b : Bool) (w : Word) : statusBusy (setDone b w) = statusBusy w := by
  simp only [statusBusy, setDone, getLsbD_setBits]; rfl

@[simp] theorem statusBusy_setErr (b : Bool) (w : Word) : statusBusy (setErr b w) = statusBusy w := by
  simp only [statusBusy, setErr, getLsbD_setBits]; rfl

@[simp] theorem statusBusy_setErrCode (c : BitVec 4) (w : Word) : statusBusy (setErrCode c w) = statusBusy w := by
  simp only [statusBusy, setErrCode, getLsbD_setBits]; rfl

@[simp] theorem statusDone_setDone (b : Bool) (w : Word) : statusDone (setDone b w) = b := by
  simp only [statusDone, setDone, getLsbD_setBits]; cases b <;> rfl

/-- R92: acceptance sets `BUSY`. -/
@[simp] theorem busy_accept (f : FuncNo) (init : Word) (e : Instance) : (accept f init e).busy = true := by
  simp [Instance.busy, statusAccepted]

/-- R171: `InvalidInput` clears `BUSY`. -/
@[simp] theorem busy_raiseInvalidInput (e : Instance) : (raiseInvalidInput e).busy = false := by
  simp [Instance.busy]

/-- R172: `IllegalCmd` leaves `BUSY` as it is. -/
@[simp] theorem busy_raiseIllegalCmd (e : Instance) : (raiseIllegalCmd e).busy = e.busy := by
  simp [Instance.busy]

/-- R95: completion clears `BUSY`. -/
@[simp] theorem busy_completionStep (e : Instance) : (completionStep e).busy = false := by
  simp [Instance.busy, statusCompleted]

/-- R35: `BUSY` is clear after a reset. -/
@[simp] theorem busy_resetInstance (aw n : Nat) (e : Instance) : (resetInstance aw n e).busy = false := by
  simp [Instance.busy, statusBusy]

/-- R95: completion sets `DONE`. -/
theorem statusDone_completionStep (e : Instance) : statusDone (completionStep e).status = true := by
  simp [statusCompleted]

end Sys2Proof.Proofs
end

section
/-!
PROOF. A turn of a host or of an engine agent as a function of one `Instance` (R34): what it makes of its own
`Instance` is computed from that `Instance`, the memory and the parameters alone. These functions carry the
statements about independence (R34, R36) and about single register writes (R21 to R27).
-/

namespace Sys2Proof.Proofs

open Sys2Proof Sys2Proof.Machine

/-- What the word `v` written to `CMD` makes of the `Instance` (R24, R90 to R92). -/
def cmdNext (aw : Nat) (v : Word) (e : Instance) : Instance :=
  if e.busy then e
  else
    match decode v with
    | .operation i =>
      if invalidReference aw e.src e.len then raiseInvalidInput e else accept (funcOf i) (initAcc i) e
    | .illegalZeroField => raiseIllegalCmd e
    | .illegalFunc => raiseIllegalCmd e

/-- What a register write makes of the `Instance` (R21). -/
def portNext (aw : Nat) (i : RegIndex) (v : Word) (e : Instance) : Instance :=
  match i.toNat with
  | 0 => writeSrc aw v e
  | 1 => writeLen aw v e
  | 2 => cmdNext aw v e
  | _ => e

/-- What a host's turn makes of its `Instance` (R76, R77). -/
def hostNext (aw : Nat) (e : Instance) : Instance :=
  match e.todo with
  | [] => e
  | .wr i v :: rest => portNext aw i v (e.setTodo rest)
  | .rd i :: rest => regRead i (e.setTodo rest)
  | .wait :: rest => if statusDone e.status then regRead 3 (e.setTodo rest) else regRead 3 e

/-- What an engine agent's turn makes of its `Instance` (R93 to R95, R99); `none` where no rule applies (log 9). -/
def engineNext (c : Config) (m : Memory) (e : Instance) : Option Instance :=
  if e.busy then
    match opOfFunc e.func with
    | none => none
    | some i =>
      if e.idx.toNat < e.len.toNat then
        some (readStep c.aw i (byteAddress c.aw e.src e.idx) (memAnswer c m (byteAddress c.aw e.src e.idx)) e)
      else if e.idx = e.len then some (completionStep e)
      else none
  else some e

/-- R22: `SRC` written while `BUSY = 0`. -/
theorem writeSrc_idle {aw : Nat} {v : Word} {e : Instance} (hb : e.busy = false) :
    writeSrc aw v e = { e with src := lowBits aw v } := by
  simp [writeSrc, hb]

/-- R23: `LEN` written while `BUSY = 0`. -/
theorem writeLen_idle {aw : Nat} {v : Word} {e : Instance} (hb : e.busy = false) :
    writeLen aw v e = { e with len := lowBits aw v } := by
  simp [writeLen, hb]

theorem writeCmd_eq (v : Word) (s : State) :
    writeCmd v s = .next (s.setInst (cmdNext s.cfg.aw v s.inst)) := by
  unfold writeCmd cmdNext
  cases hb : s.inst.busy <;> cases decode v
  case true.operation i => simp [exec_eq_commandOp, commandOp, hb]
  case false.operation i =>
    cases hv : invalidReference s.cfg.aw s.inst.src s.inst.len <;> simp [exec_eq_commandOp, commandOp, hb, hv]
  all_goals simp [illegalCommand, hb]

theorem regWrite_eq (i : RegIndex) (v : Word) (s : State) :
    regWrite i v s = .next (s.setInst (portNext s.cfg.aw i v s.inst)) := by
  unfold regWrite portNext
  match i.toNat with
  | 0 => rfl
  | 1 => rfl
  | 2 => exact writeCmd_eq v s
  | _ + 3 => exact congrArg Host.Outcome.next (State.setInst_inst s).symm

theorem hostStep_eq {s : State} (ha : s.active < s.insts.length) :
    hostStep s = .next (s.setInst (hostNext s.cfg.aw s.inst)) := by
  unfold hostStep hostNext
  cases s.inst.todo with
  | nil => simp
  | cons l rest =>
    cases l with
    | wr i v => simp [hostLine, regWrite_eq, ha]
    | rd i => rfl
    | wait => cases hd : statusDone s.inst.status <;> simp [hostLine, regValue, hd]

theorem engineStep_eq (s : State) :
    engineStep s =
      match engineNext s.cfg s.mem s.inst with
      | some e => .next (s.setInst e)
      | none => .fault .noEngineRule := by
  unfold engineStep engineNext
  cases hb : s.inst.busy
  · simp
  · cases ho : opOfFunc s.inst.func with
    | none => simp
    | some i =>
      by_cases hlt : s.inst.idx.toNat < s.inst.len.toNat
      · simp [hlt]
      · by_cases heq : s.inst.idx = s.inst.len <;> simp [heq, hlt]

/-- The `Instance` a turn concerns, once it is the active one. -/
theorem inst_setActive {s : State} {k : Nat} {e : Instance} (he : s.insts[k]? = some e) :
    (s.setActive k).inst = e := by
  simp [State.inst, he]

theorem takeTurn_host_eq {s : State} {k : Nat} {e : Instance} (he : s.insts[k]? = some e) :
    takeTurn (.host k) s = .next ((s.setActive k).setInst (hostNext s.cfg.aw e)) := by
  obtain ⟨hk, -⟩ := List.getElem?_eq_some_iff.mp he
  rw [takeTurn_host hk, hostStep_eq (s := s.setActive k) hk, inst_setActive he, State.setActive_cfg]

theorem takeTurn_engine_eq {s : State} {k : Nat} {e : Instance} (he : s.insts[k]? = some e) :
    takeTurn (.engine k) s =
      match engineNext s.cfg s.mem e with
      | some x => .next ((s.setActive k).setInst x)
      | none => .fault .noEngineRule := by
  obtain ⟨hk, -⟩ := List.getElem?_eq_some_iff.mp he
  rw [takeTurn_engine hk, engineStep_eq, inst_setActive he, State.setActive_cfg, State.setActive_mem]

end Sys2Proof.Proofs
end

section
/-!
PROOF. The hidden registers of an idle `Instance` cannot be observed (R36): every event gives the same result,
up to those registers, on a state and on the state with them blotted out.
-/

namespace Sys2Proof.Proofs

open Sys2Proof Sys2Proof.Machine

/-- The `Instance` with `ACC`, `IDX` and `FUNC` blotted out, busy or not. -/
def clearHidden (e : Instance) : Instance := { e with acc := 0, idx := 0, func := 0 }

theorem hideIdle_of_busy {e : Instance} (hb : e.busy = true) : e.hideIdle = e := by
  simp [Instance.hideIdle, hb]

theorem hideIdle_of_idle {e : Instance} (hb : e.busy = false) : e.hideIdle = clearHidden e := by
  simp [Instance.hideIdle, clearHidden, hb]

@[simp] theorem hideIdle_status (e : Instance) : e.hideIdle.status = e.status := by
  unfold Instance.hideIdle
  split <;> rfl

@[simp] theorem hideIdle_todo (e : Instance) : e.hideIdle.todo = e.todo := by
  unfold Instance.hideIdle
  split <;> rfl

@[simp] theorem hideIdle_busy (e : Instance) : e.hideIdle.busy = e.busy := congrArg statusBusy (hideIdle_status e)

@[simp] theorem hideIdle_hideIdle (e : Instance) : e.hideIdle.hideIdle = e.hideIdle := by
  cases hb : e.busy
  · rw [hideIdle_of_idle hb, hideIdle_of_idle (e := clearHidden e) hb]; rfl
  · rw [hideIdle_of_busy hb, hideIdle_of_busy hb]

/-- A change that passes the hidden registers through and leaves an idle `Instance` idle gives the same visible
result whatever they hold. -/
theorem hideIdle_comm_of_clearHidden {f : Instance → Instance} {e : Instance}
    (hf : f (clearHidden e) = clearHidden (f e)) (hidle : e.busy = false → (f e).busy = false) :
    (f e.hideIdle).hideIdle = (f e).hideIdle := by
  cases hb : e.busy
  · have hfe := hidle hb
    rw [hideIdle_of_idle hb, hf, hideIdle_of_idle hfe, hideIdle_of_idle (e := clearHidden (f e)) hfe]
    rfl
  · rw [hideIdle_of_busy hb]

theorem cmdNext_hideIdle (aw : Nat) (v : Word) (e : Instance) :
    (cmdNext aw v e.hideIdle).hideIdle = (cmdNext aw v e).hideIdle := by
  cases hb : e.busy
  case true => rw [hideIdle_of_busy hb]
  case false =>
    have hillegal : (raiseIllegalCmd e.hideIdle).hideIdle = (raiseIllegalCmd e).hideIdle :=
      hideIdle_comm_of_clearHidden rfl fun _ => by rw [busy_raiseIllegalCmd, hb]
    have hinvalid : (raiseInvalidInput e.hideIdle).hideIdle = (raiseInvalidInput e).hideIdle :=
      hideIdle_comm_of_clearHidden rfl fun _ => busy_raiseInvalidInput e
    have haccept : ∀ f init, accept f init e.hideIdle = accept f init e := by
      intro f init; rw [hideIdle_of_idle hb]; rfl
    have href : invalidReference aw e.hideIdle.src e.hideIdle.len = invalidReference aw e.src e.len := by
      rw [hideIdle_of_idle hb]; rfl
    unfold cmdNext
    rw [hideIdle_busy, hb, href]
    cases decode v with
    | operation i => cases invalidReference aw e.src e.len <;> simp [haccept, hinvalid]
    | illegalZeroField => simpa using hillegal
    | illegalFunc => simpa using hillegal

theorem portNext_hideIdle (aw : Nat) (i : RegIndex) (v : Word) (e : Instance) :
    (portNext aw i v e.hideIdle).hideIdle = (portNext aw i v e).hideIdle := by
  cases hb : e.busy
  case true => rw [hideIdle_of_busy hb]
  case false =>
    have hb' : e.hideIdle.busy = false := by rw [hideIdle_busy, hb]
    unfold portNext
    split
    · rw [writeSrc_idle hb, writeSrc_idle hb']
      exact hideIdle_comm_of_clearHidden (f := fun x => { x with src := lowBits aw v }) rfl id
    · rw [writeLen_idle hb, writeLen_idle hb']
      exact hideIdle_comm_of_clearHidden (f := fun x => { x with len := lowBits aw v }) rfl id
    · exact cmdNext_hideIdle aw v e
    · exact hideIdle_hideIdle e

theorem setTodo_hideIdle (ls : List HostLine) (e : Instance) :
    e.hideIdle.setTodo ls = (e.setTodo ls).hideIdle := by
  cases hb : e.busy
  · rw [hideIdle_of_idle hb, hideIdle_of_idle (e := e.setTodo ls) hb]; rfl
  · rw [hideIdle_of_busy hb, hideIdle_of_busy (e := e.setTodo ls) hb]

/-- R36: a register read shows nothing of the hidden registers. -/
theorem regRead_hideIdle (i : RegIndex) (e : Instance) :
    (regRead i e.hideIdle).hideIdle = (regRead i e).hideIdle :=
  hideIdle_comm_of_clearHidden (f := regRead i) rfl id

theorem hostNext_hideIdle (aw : Nat) (e : Instance) :
    (hostNext aw e.hideIdle).hideIdle = (hostNext aw e).hideIdle := by
  unfold hostNext
  rw [hideIdle_todo, hideIdle_status]
  cases e.todo with
  | nil => exact hideIdle_hideIdle e
  | cons l rest =>
    cases l with
    | wr i v => simpa only [setTodo_hideIdle] using portNext_hideIdle aw i v (e.setTodo rest)
    | rd i => simpa only [setTodo_hideIdle] using regRead_hideIdle i (e.setTodo rest)
    | wait =>
      simp only [setTodo_hideIdle]
      split
      · exact regRead_hideIdle 3 (e.setTodo rest)
      · exact regRead_hideIdle 3 e

/-- A busy `Instance` has nothing blotted out, and an idle engine agent does nothing (R99). -/
theorem engineNext_hideIdle (c : Config) (m : Memory) (e : Instance) :
    (engineNext c m e.hideIdle).map Instance.hideIdle = (engineNext c m e).map Instance.hideIdle := by
  cases hb : e.busy
  · simp [engineNext, hb]
  · rw [hideIdle_of_busy hb]

/-! ### The same for states, and for the three outcomes of an event -/

@[simp] theorem hideIdle_cfg (s : State) : s.hideIdle.cfg = s.cfg := rfl
@[simp] theorem hideIdle_insts (s : State) : s.hideIdle.insts = s.insts.map Instance.hideIdle := rfl
@[simp] theorem hideIdle_mem (s : State) : s.hideIdle.mem = s.mem := rfl
@[simp] theorem hideIdle_turns (s : State) : s.hideIdle.turns = s.turns := rfl

theorem hideIdle_setInst (s : State) (e : Instance) :
    (s.setInst e).hideIdle = s.hideIdle.setInst e.hideIdle := by
  simp [State.hideIdle, State.setInst, List.map_set]

@[simp] theorem hideIdle_hideIdle_state (s : State) : s.hideIdle.hideIdle = s.hideIdle := by
  simp [State.hideIdle, Function.comp_def]

/-- The outcome of an event with the hidden registers of idle `Instance`s blotted out in the next state. -/
def hideOutcome : Host.Outcome State Fault Refusal → Host.Outcome State Fault Refusal
  | .next t => .next t.hideIdle
  | .fault r => .fault r
  | .refused r => .refused r

/-- Two changes of the active `Instance` that look alike make states that look alike. -/
theorem hideOutcome_setInst_congr (s : State) {e e' : Instance} (h : e'.hideIdle = e.hideIdle) :
    hideOutcome (.next (s.hideIdle.setInst e')) = hideOutcome (.next (s.setInst e)) := by
  simp only [hideOutcome, hideIdle_setInst, hideIdle_hideIdle_state, h]

theorem takeTurn_host_hideIdle (s : State) (k : Nat) :
    hideOutcome (takeTurn (.host k) s.hideIdle) = hideOutcome (takeTurn (.host k) s) := by
  cases he : s.insts[k]? with
  | none =>
    have hk : ¬ k < s.insts.length := by simpa using he
    simp [takeTurn, Turn.wf, hk]
  | some e =>
    rw [takeTurn_host_eq he, takeTurn_host_eq (s := s.hideIdle) (e := e.hideIdle) (by simp [he])]
    exact hideOutcome_setInst_congr (s.setActive k) (hostNext_hideIdle s.cfg.aw e)

theorem takeTurn_engine_hideIdle (s : State) (k : Nat) :
    hideOutcome (takeTurn (.engine k) s.hideIdle) = hideOutcome (takeTurn (.engine k) s) := by
  cases he : s.insts[k]? with
  | none =>
    have hk : ¬ k < s.insts.length := by simpa using he
    simp [takeTurn, Turn.wf, hk]
  | some e =>
    rw [takeTurn_engine_eq he, takeTurn_engine_eq (s := s.hideIdle) (e := e.hideIdle) (by simp [he])]
    have hcomm := engineNext_hideIdle s.cfg s.mem e
    rw [hideIdle_cfg, hideIdle_mem]
    cases hx' : engineNext s.cfg s.mem e.hideIdle <;> cases hx : engineNext s.cfg s.mem e <;>
      simp only [hx, hx', Option.map_some, Option.map_none, Option.some.injEq, reduceCtorEq] at hcomm
    case none.none => rfl
    case some.some => exact hideOutcome_setInst_congr (s.setActive k) hcomm

/-- R35: a reset writes every hidden register anew. -/
theorem resetInstances_hideIdle (aw n : Nat) (l : List Instance) :
    resetInstances aw n (l.map Instance.hideIdle) = resetInstances aw n l := by
  induction l generalizing n with
  | nil => rfl
  | cons e l ih =>
    have he : resetInstance aw n e.hideIdle = resetInstance aw n e := by
      unfold Instance.hideIdle
      split <;> rfl
    simp only [List.map_cons, resetInstances, he, ih]

theorem takeTurn_hideIdle (u : Turn) (s : State) :
    hideOutcome (takeTurn u s.hideIdle) = hideOutcome (takeTurn u s) := by
  cases u with
  | host k => exact takeTurn_host_hideIdle s k
  | engine k => exact takeTurn_engine_hideIdle s k
  | reset =>
    have hreset : resetEvent s.hideIdle = resetEvent s := by
      simp [resetEvent, resetInstances_hideIdle, State.hideIdle]
    rw [takeTurn_reset, takeTurn_reset, hreset]
  | memWrite a b =>
    by_cases ha : a < 2 ^ s.cfg.aw
    · rw [takeTurn_memWrite b ha, takeTurn_memWrite (s := s.hideIdle) b ha]
      exact congrArg Host.Outcome.next (hideIdle_hideIdle_state (s.setMem (Memory.write s.mem a b)))
    · simp [takeTurn, Turn.wf, ha]

theorem firstWith_map_hideIdle {p : Instance → Bool} (hp : ∀ e, p e.hideIdle = p e) (n : Nat) (l : List Instance) :
    firstWith p n (l.map Instance.hideIdle) = firstWith p n l := by
  induction l generalizing n with
  | nil => rfl
  | cons e l ih => simp only [List.map_cons, firstWith, hp, ih]

/-- The move made when no turn is listed is a turn of the agent found first (log 5). -/
theorem defaultMove_eq (s : State) :
    defaultMove s =
      match firstWith Instance.busy 0 s.insts with
      | some k => takeTurn (.engine k) s
      | none =>
        match firstWith (fun e => !e.todo.isEmpty) 0 s.insts with
        | some k => takeTurn (.host k) s
        | none => .next s := by
  have hlt : ∀ {p k}, firstWith p 0 s.insts = some k → k < s.insts.length := fun h => by
    obtain ⟨-, hk, -⟩ := firstWith_some h
    simpa using hk
  unfold defaultMove
  cases hbusy : firstWith Instance.busy 0 s.insts with
  | some k => exact (takeTurn_engine (hlt hbusy)).symm
  | none =>
    cases htodo : firstWith (fun e => !e.todo.isEmpty) 0 s.insts with
    | some k => exact (takeTurn_host (hlt htodo)).symm
    | none => rfl

theorem defaultMove_hideIdle (s : State) :
    hideOutcome (defaultMove s.hideIdle) = hideOutcome (defaultMove s) := by
  rw [defaultMove_eq, defaultMove_eq, hideIdle_insts, firstWith_map_hideIdle hideIdle_busy,
    firstWith_map_hideIdle fun e => by rw [hideIdle_todo]]
  cases firstWith Instance.busy 0 s.insts with
  | some k => exact takeTurn_engine_hideIdle s k
  | none =>
    cases firstWith (fun e => !e.todo.isEmpty) 0 s.insts with
    | some k => exact takeTurn_host_hideIdle s k
    | none => exact congrArg Host.Outcome.next (hideIdle_hideIdle_state s)

/-- R36: a step cannot tell a state from the state with the hidden registers of idle `Instance`s blotted out. -/
theorem step_hideIdle (s : State) : hideOutcome (step s.hideIdle) = hideOutcome (step s) := by
  unfold step
  rw [hideIdle_turns]
  cases s.turns with
  | nil => exact defaultMove_hideIdle s
  | cons u us => exact takeTurn_hideIdle u (s.setTurns us)

/-- Settles O56: both states step as the one state with their hidden registers blotted out does. -/
theorem idleHiddenStateIsUnobservable : Obligations.IdleHiddenStateIsUnobservable := by
  unfold Obligations.IdleHiddenStateIsUnobservable
  intro s s' hsame
  have hstep : hideOutcome (step s) = hideOutcome (step s') := by
    rw [← step_hideIdle s, hsame, step_hideIdle s']
  constructor
  · intro t ht
    rw [ht] at hstep
    cases ht' : step s' <;> rw [ht'] at hstep
    case next t' => exact ⟨t', rfl, Host.Outcome.next.inj hstep⟩
    all_goals nomatch hstep
  · intro r hr
    rw [hr] at hstep
    cases hr' : step s' <;> rw [hr'] at hstep
    case fault r' => exact hstep.symm
    all_goals nomatch hstep

end Sys2Proof.Proofs
end

section
/-!
PROOF. What one step can make of one `Instance`, as a list of events with their guards, and the invariant of the
machine kept by each of them (R26, R29, R63, R96).
-/

namespace Sys2Proof.Proofs

open Sys2Proof Sys2Proof.Machine

/-- `e'` holds the same command state as `e`: only host lines, answers seen and, while idle, `SRC` and `LEN` may
differ, the latter two stored as `AW`-bit values. -/
structure KeepsCommand (aw : Nat) (e e' : Instance) : Prop where
  status : e'.status = e.status
  digest : e'.digest = e.digest
  acc : e'.acc = e.acc
  idx : e'.idx = e.idx
  func : e'.func = e.func
  reads : e'.reads = e.reads
  reference : (e'.src = e.src ∧ e'.len = e.len) ∨
    (e.busy = false ∧ (e'.src = e.src ∨ ∃ v, e'.src = lowBits aw v) ∧ (e'.len = e.len ∨ ∃ v, e'.len = lowBits aw v))

/-- Everything a step other than a reset can make of one `Instance`: nothing to its command, one of the three
answers to a write of `CMD` while idle (R90 to R92), or one of the three engine steps while busy (R93 to R95). -/
inductive Event (c : Config) (m : Memory) (e : Instance) : Instance → Prop
  | quiet {e' : Instance} (h : KeepsCommand c.aw e e') : Event c m e e'
  | illegal {v : Word} {rest : List HostLine} (hb : e.busy = false) (hline : e.todo = .wr 2 v :: rest)
      (hillegal : ∀ i, decode v ≠ .operation i) : Event c m e (raiseIllegalCmd (e.setTodo rest))
  | refused {v : Word} {rest : List HostLine} (hb : e.busy = false) (hline : e.todo = .wr 2 v :: rest)
      (hop : ∃ i, decode v = .operation i) (hinvalid : invalidReference c.aw e.src e.len = true) :
      Event c m e (raiseInvalidInput (e.setTodo rest))
  | accepted {v : Word} {rest : List HostLine} {i : Instr} (hb : e.busy = false) (hline : e.todo = .wr 2 v :: rest)
      (hop : decode v = .operation i) (hvalid : invalidReference c.aw e.src e.len = false) :
      Event c m e (accept (funcOf i) (initAcc i) (e.setTodo rest))
  | byte {i : Instr} {r : Byte} (hb : e.busy = true) (hop : opOfFunc e.func = some i)
      (hlt : e.idx.toNat < e.len.toNat) (hanswer : memAnswer c m (byteAddress c.aw e.src e.idx) = some r) :
      Event c m e (byteStep c.aw i r (recordRead (byteAddress c.aw e.src e.idx) (some r) e))
  | fault {i : Instr} (hb : e.busy = true) (hop : opOfFunc e.func = some i) (hlt : e.idx.toNat < e.len.toNat)
      (hanswer : memAnswer c m (byteAddress c.aw e.src e.idx) = none) :
      Event c m e (raiseInvalidInput (recordRead (byteAddress c.aw e.src e.idx) none e))
  | completed {i : Instr} (hb : e.busy = true) (hop : opOfFunc e.func = some i) (heq : e.idx = e.len) :
      Event c m e (completionStep e)

theorem KeepsCommand.refl (aw : Nat) (e : Instance) : KeepsCommand aw e e :=
  ⟨rfl, rfl, rfl, rfl, rfl, rfl, .inl ⟨rfl, rfl⟩⟩

theorem KeepsCommand.busy {aw : Nat} {e e' : Instance} (h : KeepsCommand aw e e') : e'.busy = e.busy :=
  congrArg statusBusy h.status

theorem event_of_portWrite {c : Config} {m : Memory} {e e' : Instance} {i : RegIndex} {v : Word}
    {rest : List HostLine} (hline : e.todo = .wr i v :: rest) (hb : e.busy = false)
    (h : PortWrite c.aw i v (e.setTodo rest) e') : Event c m e e' := by
  rcases h with ⟨-, rfl⟩ | ⟨-, rfl⟩ | ⟨rfl, hillegal, rfl⟩ | ⟨rfl, hop, hinvalid, rfl⟩ |
    ⟨rfl, j, hop, hvalid, rfl⟩ | ⟨-, rfl⟩
  · exact .quiet ⟨rfl, rfl, rfl, rfl, rfl, rfl, .inr ⟨hb, .inr ⟨v, rfl⟩, .inl rfl⟩⟩
  · exact .quiet ⟨rfl, rfl, rfl, rfl, rfl, rfl, .inr ⟨hb, .inl rfl, .inr ⟨v, rfl⟩⟩⟩
  · exact .illegal hb hline hillegal
  · exact .refused hb hline hop hinvalid
  · exact .accepted hb hline hop hvalid
  · exact .quiet ⟨rfl, rfl, rfl, rfl, rfl, rfl, .inl ⟨rfl, rfl⟩⟩

theorem event_of_hostChange {c : Config} {m : Memory} {e e' : Instance} (h : HostChange c.aw e e') :
    Event c m e e' := by
  rcases h with rfl | ⟨i, ls, -, rfl⟩ | ⟨i, v, rest, hline, ⟨-, rfl⟩ | ⟨hb, hw⟩⟩
  · exact .quiet (.refl c.aw e')
  · exact .quiet ⟨rfl, rfl, rfl, rfl, rfl, rfl, .inl ⟨rfl, rfl⟩⟩
  · exact .quiet ⟨rfl, rfl, rfl, rfl, rfl, rfl, .inl ⟨rfl, rfl⟩⟩
  · exact event_of_portWrite hline hb hw

theorem event_of_engineChange {c : Config} {m : Memory} {e e' : Instance} (h : EngineChange c m e e') :
    Event c m e e' := by
  rcases h with ⟨-, rfl⟩ | ⟨hb, i, hop, ⟨hlt, rfl⟩ | ⟨heq, rfl⟩⟩
  · exact .quiet (.refl c.aw e')
  · cases hanswer : memAnswer c m (byteAddress c.aw e.src e.idx) with
    | some r => exact .byte hb hop hlt hanswer
    | none => exact .fault hb hop hlt hanswer
  · exact .completed hb hop heq

/-- A step makes of each `Instance` what one event does, or what a reset does. -/
theorem step_event {s t : State} {k : Nat} {e e' : Instance} (h : step s = .next t) (he : s.insts[k]? = some e)
    (he' : t.insts[k]? = some e') :
    Event s.cfg s.mem e e' ∨
      (s.turns.head? = some .reset ∧ e' = resetInstance s.cfg.aw (s.fresh + k) e) := by
  rcases step_change h he he' with rfl | hhost | hengine | hreset
  · exact .inl (.quiet (.refl s.cfg.aw e'))
  · exact .inl (event_of_hostChange hhost)
  · exact .inl (event_of_engineChange hengine)
  · exact .inr hreset

/-- The parts of the state outside the `Instance`s: a step keeps the parameters and the number of `Instance`s,
leaves one of them active, and writes memory at another agent's turn only (R33, R55, R65). -/
theorem step_frame {s t : State} (h : step s = .next t) :
    t.cfg = s.cfg ∧ t.insts.length = s.insts.length ∧ (s.active < s.insts.length → t.active < t.insts.length) ∧
      (t.mem = s.mem ∨
        ∃ a b, s.turns.head? = some (.memWrite a b) ∧ a < 2 ^ s.cfg.aw ∧ t.mem = Memory.write s.mem a b) := by
  obtain ⟨s0, rfl, ⟨k, hk, -, h⟩ | ⟨k, hk, -, h⟩ | ⟨-, rfl⟩ | ⟨a, b, hturn, ha, rfl⟩ | ⟨-, -, rfl⟩⟩ := step_cases h
  · obtain ⟨x, hx, -⟩ := hostStep_change (s := (s.setTurns s.turns.tail).setActive k) hk
    obtain rfl := Host.Outcome.next.inj (hx.symm.trans h)
    exact ⟨rfl, by simp, fun _ => by simpa using hk, .inl rfl⟩
  · obtain ⟨x, rfl, -⟩ := engineStep_change h
    exact ⟨rfl, by simp, fun _ => by simpa using hk, .inl rfl⟩
  · exact ⟨rfl, by simp [resetEvent], fun ha => by simpa [resetEvent] using ha, .inl rfl⟩
  · exact ⟨rfl, rfl, id, .inr ⟨a, b, hturn, ha, rfl⟩⟩
  · exact ⟨rfl, rfl, id, .inl rfl⟩

/-- A property of every `Instance` is kept by a step when each event and a reset keep it. -/
theorem forall_insts_of_step {s t : State} {P : Instance → Prop} (h : step s = .next t) (hP : ∀ e ∈ s.insts, P e)
    (hevent : ∀ e e', P e → Event s.cfg s.mem e e' → P e') (hreset : ∀ e n, P e → P (resetInstance s.cfg.aw n e)) :
    ∀ e' ∈ t.insts, P e' := by
  intro e' hmem
  obtain ⟨k, he'⟩ := List.mem_iff_getElem?.mp hmem
  obtain ⟨-, hlength, -, -⟩ := step_frame h
  obtain ⟨hk, -⟩ := List.getElem?_eq_some_iff.mp he'
  have he : s.insts[k]? = some s.insts[k] := List.getElem?_eq_getElem (hlength ▸ hk)
  have hPe : P s.insts[k] := hP _ (List.getElem_mem _)
  rcases step_event h he he' with hev | ⟨-, rfl⟩
  · exact hevent _ _ hPe hev
  · exact hreset _ _ hPe

/-! ### The list of reads (R55, R61) -/

theorem length_readsFrom (a : Nat) (m : List Byte) : (readsFrom a m).length = m.length := by
  induction m generalizing a with
  | nil => rfl
  | cons b m ih => simp [readsFrom, ih]

theorem readsFrom_snoc (a : Nat) (m : List Byte) (r : Byte) :
    readsFrom a (m ++ [r]) = readsFrom a m ++ [{ addr := a + m.length, answer := some r }] := by
  induction m generalizing a with
  | nil => rfl
  | cons b m ih =>
    have haddr : a + 1 + m.length = a + (b :: m).length := by simp; omega
    simp [readsFrom, ih, haddr]

theorem answeredBytes_snoc (rs : List MemRead) (a : Nat) (r : Byte) :
    answeredBytes (rs ++ [{ addr := a, answer := some r }]) = answeredBytes rs ++ [r] := by
  simp [answeredBytes]

/-! ### The invariant -/

/-- R26: `STATUS` of a running command is 0x01. -/
theorem status_of_busy {e : Instance} (hlegal : e.status ∈ legalStatus) (hb : e.busy = true) : e.status = 0x01 :=
  legalStatus_busy _ hlegal hb

theorem legalStatus_raiseInvalidInput {e : Instance} (hlegal : e.status ∈ legalStatus) :
    (raiseInvalidInput e).status ∈ legalStatus := by
  rw [raiseInvalidInput_of_legal e hlegal]; decide

theorem legalStatus_raiseIllegalCmd {e : Instance} (hlegal : e.status ∈ legalStatus) (hb : e.busy = false) :
    (raiseIllegalCmd e).status ∈ legalStatus := by
  rw [raiseIllegalCmd_of_legal e hlegal hb]; decide

theorem legalStatus_accept (f : FuncNo) (init : Word) {e : Instance} (hlegal : e.status ∈ legalStatus) :
    (accept f init e).status ∈ legalStatus := by
  rw [accept_status, statusAccepted_of_legal _ hlegal]; decide

theorem legalStatus_completionStep {e : Instance} (hlegal : e.status ∈ legalStatus) (hb : e.busy = true) :
    (completionStep e).status ∈ legalStatus := by
  rw [completionStep_status, status_of_busy hlegal hb, statusCompleted_of_running]; decide

/-- R26: every event keeps `STATUS` among the five words. -/
theorem event_keeps_legalStatus {c : Config} {m : Memory} {e e' : Instance} (h : Event c m e e')
    (hlegal : e.status ∈ legalStatus) : e'.status ∈ legalStatus := by
  cases h with
  | quiet hkeep => rwa [hkeep.status]
  | illegal hb => exact legalStatus_raiseIllegalCmd hlegal hb
  | refused | fault => exact legalStatus_raiseInvalidInput hlegal
  | accepted => exact legalStatus_accept _ _ hlegal
  | byte => exact hlegal
  | completed hb => exact legalStatus_completionStep hlegal hb

/-- R22, R23, R29: every event keeps `SRC` and `LEN` within `AW` bits. -/
theorem event_keeps_reference_lt {c : Config} {m : Memory} {e e' : Instance} (haw : c.aw ≤ 64)
    (h : Event c m e e') (hsrc : e.src.toNat < 2 ^ c.aw) (hlen : e.len.toNat < 2 ^ c.aw) :
    e'.src.toNat < 2 ^ c.aw ∧ e'.len.toNat < 2 ^ c.aw := by
  cases h with
  | quiet hkeep =>
    rcases hkeep.reference with ⟨hs, hl⟩ | ⟨-, hs, hl⟩
    · exact ⟨by rwa [hs], by rwa [hl]⟩
    · constructor
      · rcases hs with hs | ⟨v, hs⟩ <;> rw [hs]
        exacts [hsrc, lowBits_lt haw v]
      · rcases hl with hl | ⟨v, hl⟩ <;> rw [hl]
        exacts [hlen, lowBits_lt haw v]
  | illegal | refused | accepted | byte | fault | completed => exact ⟨hsrc, hlen⟩

theorem nextIdx_lt {aw : Nat} (haw : aw ≤ 64) (idx : Word) : (nextIdx aw idx).toNat < 2 ^ aw := by
  have hmod := Nat.mod_lt (idx.toNat + 1) (Nat.two_pow_pos aw)
  have hpow := pow_le_word haw
  simp only [nextIdx, BitVec.toNat_ofNat]
  rwa [Nat.mod_eq_of_lt (by omega)]

/-- R29: every event keeps `IDX` within `AW` bits. -/
theorem event_keeps_idx_lt {c : Config} {m : Memory} {e e' : Instance} (haw : c.aw ≤ 64)
    (h : Event c m e e') (hidx : e.idx.toNat < 2 ^ c.aw) : e'.idx.toNat < 2 ^ c.aw := by
  cases h with
  | quiet hkeep => rwa [hkeep.idx]
  | accepted => exact Nat.two_pow_pos c.aw
  | byte => exact nextIdx_lt haw e.idx
  | illegal | refused | fault | completed => exact hidx

/-- R92: an accepted command has read nothing, and `ACC` is the fold of no bytes. -/
theorem running_accept {aw : Nat} (i : Instr) {e : Instance} (hvalid : invalidReference aw e.src e.len = false) :
    (accept (funcOf i) (initAcc i) e).running aw i :=
  ⟨hvalid, Nat.zero_le _, rfl, rfl, (hashWord_nil i).symm⟩

/-- R63, R93: a byte step appends the byte as answered to the reads and folds it into `ACC`. -/
theorem running_byteStep {aw : Nat} {i : Instr} {e : Instance} (r : Byte) (h : e.running aw i)
    (hlt : e.idx.toNat < e.len.toNat) :
    (byteStep aw i r (recordRead (byteAddress aw e.src e.idx) (some r) e)).running aw i := by
  obtain ⟨hvalid, -, hcount, hreads, hacc⟩ := h
  have haddr := byteAddress_of_valid hvalid hlt
  have hnext := toNat_nextIdx hvalid hlt
  have hbytes : (answeredBytes e.reads).length = e.idx.toNat := by
    rw [← hcount, ← length_readsFrom e.src.toNat, ← hreads]
  refine ⟨hvalid, ?_, ?_, ?_, ?_⟩
  · simp only [byteStep_idx, byteStep_len, recordRead_idx, recordRead_len]; omega
  · simp [hnext, hcount]
  · simp only [byteStep_reads, byteStep_src, recordRead_reads, recordRead_src, answeredBytes_snoc, readsFrom_snoc,
      hbytes, haddr]
    rw [← hreads]
  · simp only [byteStep_reads, byteStep_acc, recordRead_reads, recordRead_acc, answeredBytes_snoc, hashWord_snoc,
      ← hacc]

/-- While `BUSY = 0` nothing is asked of the command. -/
theorem running_of_idle {aw : Nat} {e : Instance} (hb : e.busy = false) :
    e.busy = true → ∃ i ∈ opOfFunc e.func, e.running aw i :=
  fun h => absurd (hb.symm.trans h) Bool.false_ne_true

/-- R29, R63, R96: every event leaves a running command running as the invariant says. -/
theorem event_keeps_running {c : Config} {m : Memory} {e e' : Instance} (h : Event c m e e')
    (hrun : e.busy = true → ∃ i ∈ opOfFunc e.func, e.running c.aw i) :
    e'.busy = true → ∃ i ∈ opOfFunc e'.func, e'.running c.aw i := by
  cases h with
  | quiet hkeep =>
    rcases hkeep.reference with ⟨hs, hl⟩ | ⟨hb, -⟩
    · simpa only [Instance.running, hkeep.busy, hkeep.func, hkeep.reads, hkeep.acc, hkeep.idx, hs, hl] using hrun
    · exact running_of_idle (hkeep.busy.trans hb)
  | illegal hb => exact running_of_idle (by simpa using hb)
  | refused | fault => exact running_of_idle (busy_raiseInvalidInput _)
  | accepted _ _ _ hvalid => exact fun _ => ⟨_, opOfFunc_funcOf _, running_accept _ hvalid⟩
  | byte hb hop hlt =>
    intro _
    obtain ⟨j, hj, hrunning⟩ := hrun hb
    obtain rfl := Option.some.inj (hop.symm.trans hj)
    exact ⟨_, hop, running_byteStep _ hrunning hlt⟩
  | completed => exact running_of_idle (busy_completionStep _)

theorem event_keeps_inv {c : Config} {m : Memory} {e e' : Instance} (haw : c.aw ≤ 64) (h : Event c m e e')
    (hinv : e.Inv c.aw) : e'.Inv c.aw := by
  obtain ⟨⟨hsrc, hlen, hidx, hlegal⟩, hrun⟩ := hinv
  obtain ⟨hsrc', hlen'⟩ := event_keeps_reference_lt haw h hsrc hlen
  exact ⟨⟨hsrc', hlen', event_keeps_idx_lt haw h hidx, event_keeps_legalStatus h hlegal⟩, event_keeps_running h hrun⟩

/-- R35: whatever free values the hidden registers receive, a reset `Instance` is idle with registers in range. -/
theorem inv_resetInstance {aw : Nat} (haw : aw ≤ 64) (n : Nat) (e : Instance) : (resetInstance aw n e).Inv aw :=
  ⟨⟨Nat.two_pow_pos aw, Nat.two_pow_pos aw, lowBits_lt haw _, by simp [legalStatus]⟩,
    running_of_idle (busy_resetInstance aw n e)⟩

theorem aw_le_of_wf {c : Config} (h : c.wf = true) : c.aw ≤ 64 := (of_decide_eq_true h).2

/-- Settles O48: the frame of a step keeps memory and parameters, and each event keeps each `Instance`. -/
theorem everyStepKeepsTheInvariant : Obligations.EveryStepKeepsTheInvariant := by
  unfold Obligations.EveryStepKeepsTheInvariant
  rintro s t ⟨hwf, hactive, hmem, hspace, hinsts⟩ hstep
  have haw := aw_le_of_wf hwf
  obtain ⟨hcfg, -, hactive', hwrite⟩ := step_frame hstep
  have hinsts' : ∀ e' ∈ t.insts, e'.Inv s.cfg.aw :=
    forall_insts_of_step hstep hinsts (fun _ _ hinv hev => event_keeps_inv haw hev hinv)
      fun e n _ => inv_resetInstance haw n e
  have hmem' : Memory.wf t.mem = true ∧ Memory.inSpace s.cfg.aw t.mem = true := by
    rcases hwrite with hsame | ⟨a, b, -, ha, hwritten⟩
    · rw [hsame]; exact ⟨hmem, hspace⟩
    · rw [hwritten]; exact ⟨Memory.write_wf a b hmem, Memory.write_inSpace b ha hspace⟩
  rw [State.Inv, hcfg]
  exact ⟨hwf, hactive' hactive, hmem'.1, hmem'.2, hinsts'⟩

end Sys2Proof.Proofs
end

section
/-!
PROOF. The registers: what single writes do (R21 to R27), what a step can do to `STATUS`, `DIGEST`, `ACC` and `IDX`
(R26 to R30), and their values at reset (R35).
-/

namespace Sys2Proof.Proofs

open Sys2Proof Sys2Proof.Machine

/-! ### Single writes and engine steps -/

/-- R21: a write to index 3 or above changes nothing. -/
theorem regWrite_of_three_le {i : RegIndex} (hi : 3 ≤ i.toNat) (v : Word) (s : State) : regWrite i v s = .next s := by
  unfold regWrite
  split
  · omega
  · omega
  · omega
  · rfl

/-- R24: a write of index 2 is the command. -/
theorem regWrite_cmd (v : Word) (s : State) : regWrite 2 v s = .next (s.setInst (cmdNext s.cfg.aw v s.inst)) :=
  regWrite_eq 2 v s

theorem writeCmd_operation {v : Word} {i : Instr} (h : decode v = .operation i) (s : State) :
    writeCmd v s = exec i s := by
  simp [writeCmd, h]

/-- R90: an illegal word written while idle. -/
theorem writeCmd_illegal {v : Word} {s : State} (hb : s.inst.busy = false) (h : ∀ i, decode v ≠ .operation i) :
    writeCmd v s = .next (s.setInst (raiseIllegalCmd s.inst)) := by
  rcases writeCmd_cases v s with ⟨i, hi, -⟩ | ⟨-, hw⟩
  · exact absurd hi (h i)
  · simpa [illegalCommand, hb] using hw

/-- R172: from a ready `Instance`, `IllegalCmd` is `STATUS` 0x26 and nothing else. -/
theorem raiseIllegalCmd_eq {e : Instance} (hlegal : e.status ∈ legalStatus) (hb : e.busy = false) :
    raiseIllegalCmd e = { e with status := 0x26 } := by
  rw [← raiseIllegalCmd_of_legal e hlegal hb]; rfl

/-- R92: a legal command written while idle on a valid reference is accepted. -/
theorem cmdNext_accept {aw : Nat} {v : Word} {i : Instr} {e : Instance} (hb : e.busy = false)
    (hop : decode v = .operation i) (hvalid : invalidReference aw e.src e.len = false) :
    cmdNext aw v e = accept (funcOf i) (initAcc i) e := by
  simp [cmdNext, hb, hop, hvalid]

/-- A command leaves `SRC` and `LEN`. -/
theorem cmdNext_reference (aw : Nat) (v : Word) (e : Instance) :
    (cmdNext aw v e).src = e.src ∧ (cmdNext aw v e).len = e.len := by
  unfold cmdNext
  split
  · exact ⟨rfl, rfl⟩
  · split
    · split <;> exact ⟨rfl, rfl⟩
    · exact ⟨rfl, rfl⟩
    · exact ⟨rfl, rfl⟩

/-- An engine step leaves `SRC` and `LEN`. -/
theorem engineChange_reference {c : Config} {m : Memory} {e e' : Instance} (h : EngineChange c m e e') :
    e'.src = e.src ∧ e'.len = e.len := by
  rcases h with ⟨-, rfl⟩ | ⟨-, i, -, ⟨-, rfl⟩ | ⟨-, rfl⟩⟩
  · exact ⟨rfl, rfl⟩
  · unfold readStep
    split <;> exact ⟨rfl, rfl⟩
  · exact ⟨rfl, rfl⟩

/-- R95: what a busy engine agent does once every byte is consumed. -/
theorem engineStep_completion {s : State} {i : Instr} (hb : s.inst.busy = true) (hop : opOfFunc s.inst.func = some i)
    (hidx : s.inst.idx = s.inst.len) : engineStep s = .next (s.setInst (completionStep s.inst)) := by
  have hnext : engineNext s.cfg s.mem s.inst = some (completionStep s.inst) := by
    simp [engineNext, hb, hop, hidx]
  rw [engineStep_eq, hnext]

/-- R27: the accumulator's `W` bits, zero-extended, with the width read off bit 0 of `FUNC`. -/
theorem digestValue_eq (f : FuncNo) (acc : Word) :
    digestValue f acc = if f.getLsbD 0 then acc else (acc.setWidth 32).setWidth 64 := by
  unfold digestValue widthOf
  cases f.getLsbD 0 <;> rfl

/-- R28: the digest of a 32-bit operation has its upper half clear. -/
theorem hashWord_lt {i : Instr} (hwidth : (funcOf i).getLsbD 0 = false) (m : List Byte) :
    (hashWord i m).toNat < 2 ^ 32 := by
  have hzext : ∀ x : Word32, (zext64 x).toNat < 2 ^ 32 := fun x => by rw [toNat_zext64]; exact x.isLt
  cases i with
  | hash_djb2_32 => exact hzext _
  | hash_djb2_32_xor => exact hzext _
  | hash_fnv1a_32 => exact hzext _
  | hash_fnv1a_32_opt => exact hzext _
  | hash_sdbm_32 => exact hzext _
  | hash_djb2_64 => exact absurd hwidth (by decide)
  | hash_djb2_64_xor => exact absurd hwidth (by decide)
  | hash_fnv1a_64 => exact absurd hwidth (by decide)
  | hash_fnv1a_64_opt => exact absurd hwidth (by decide)
  | hash_sdbm_64 => exact absurd hwidth (by decide)

/-! ### Obligations about single writes -/

/-- Settles O23: both stores are `lowBits`, and commands and engine steps leave `SRC` and `LEN`. -/
theorem srcAndLenStoreLowBits : Obligations.SrcAndLenStoreLowBits := by
  unfold Obligations.SrcAndLenStoreLowBits
  intro s v hactive hwf
  refine ⟨fun hb => ⟨lowBits s.cfg.aw v, toNat_lowBits (aw_le_of_wf hwf) v, ?_, ?_⟩,
    fun hb => ⟨regWrite_busy 0 v s hb, regWrite_busy 1 v s hb⟩, rfl, rfl, ?_⟩
  · rw [← writeSrc_idle hb]; rfl
  · rw [← writeLen_idle hb]; rfl
  · rintro t (hcmd | hengine)
    · rw [regWrite_cmd] at hcmd
      obtain rfl := Host.Outcome.next.inj hcmd
      rw [State.inst_setInst s hactive]
      exact cmdNext_reference s.cfg.aw v s.inst
    · obtain ⟨x, rfl, hchange⟩ := engineStep_change hengine
      rw [State.inst_setInst s hactive]
      exact engineChange_reference hchange

/-- Settles O24: a write of `CMD` is `writeCmd`, whose two cases are a legal and an illegal word. -/
theorem commandRegisterIsAnEvent : Obligations.CommandRegisterIsAnEvent := by
  unfold Obligations.CommandRegisterIsAnEvent
  refine ⟨fun _ => rfl, fun s v hb => regWrite_busy 2 v s hb, fun s v i _ hop => writeCmd_operation hop s, ?_⟩
  rintro s v ⟨-, hlegal, hb⟩ hillegal
  rw [← raiseIllegalCmd_eq hlegal hb]
  exact writeCmd_illegal hb hillegal

/-- Settles O25: reads by evaluation of `regValue`, writes by `regWrite_of_three_le`. -/
theorem readOnlyAndReservedRegisters : Obligations.ReadOnlyAndReservedRegisters := by
  unfold Obligations.ReadOnlyAndReservedRegisters
  exact ⟨fun _ => ⟨rfl, rfl, rfl, rfl, rfl⟩, fun s v _ hi => regWrite_of_three_le hi v s⟩

/-- A step at a host's turn whose next line writes an operation to `CMD` (R24, R76). -/
theorem step_host_writeCmd {s : State} {k : Nat} {ts : List Turn} {v : Word} {rest : List HostLine} {e : Instance}
    {i : Instr} (hturn : s.turns = .host k :: ts) (he : s.insts[k]? = some e) (hline : e.todo = .wr 2 v :: rest)
    (hop : decode v = .operation i) :
    step s = exec i (((s.setTurns ts).setActive k).setInst (e.setTodo rest)) := by
  obtain ⟨hk, -⟩ := List.getElem?_eq_some_iff.mp he
  have hinst : ((s.setTurns ts).setActive k).inst = e := inst_setActive he
  have hhost : hostStep ((s.setTurns ts).setActive k) =
      hostLine (.wr 2 v) rest ((s.setTurns ts).setActive k) := by
    unfold hostStep
    rw [hinst, hline]
  rw [step, hturn]
  calc takeTurn (.host k) (s.setTurns ts)
      = hostStep ((s.setTurns ts).setActive k) := takeTurn_host hk
    _ = writeCmd v (((s.setTurns ts).setActive k).setInst (e.setTodo rest)) := by rw [hhost, ← hinst]; rfl
    _ = exec i (((s.setTurns ts).setActive k).setInst (e.setTodo rest)) := writeCmd_operation hop _

/-- A row of the opcode table that the decoder reads as an operation is a command word of it (R75). -/
theorem decode_of_decodeTableWord {nbits w : Nat} {i : Instr} (h : decodeTableWord nbits w = some i) :
    decode (BitVec.ofNat 64 (w % 2 ^ nbits)) = .operation i := by
  unfold decodeTableWord at h
  split at h
  · cases hd : decode (BitVec.ofNat 64 (w % 2 ^ nbits)) with
    | operation j => simpa [hd] using h
    | illegalZeroField => simp [hd] at h
    | illegalFunc => simp [hd] at h
  · nomatch h

/-- Settles O4: `withFetchWord` is a state of the first clause, and taking its turn and line off gives `s` back. -/
theorem stepRunsTheCommandWritten : Obligations.StepRunsTheCommandWritten := by
  unfold Obligations.StepRunsTheCommandWritten
  refine ⟨fun s k ts v rest e i => step_host_writeCmd, ?_⟩
  intro s nbits w i hactive _ htable
  have he : (s.withFetchWord nbits w).insts[s.active]? =
      some (s.inst.setTodo (.wr 2 (BitVec.ofNat 64 (w % 2 ^ nbits)) :: s.inst.todo)) := by
    simp [State.withFetchWord, hactive]
  have hback : (((s.withFetchWord nbits w).setTurns s.turns).setActive s.active).setInst
      ((s.inst.setTodo (.wr 2 (BitVec.ofNat 64 (w % 2 ^ nbits)) :: s.inst.todo)).setTodo s.inst.todo) = s := by
    calc _ = (s.setInst (s.inst.setTodo (.wr 2 (BitVec.ofNat 64 (w % 2 ^ nbits)) :: s.inst.todo))).setInst s.inst := rfl
      _ = s := by rw [State.setInst_setInst, State.setInst_inst]
  rw [step_host_writeCmd (s := s.withFetchWord nbits w) rfl he rfl (decode_of_decodeTableWord htable), hback]

/-! ### Obligations about the registers along a step -/

/-- Settles O26: by the events of a step; only those the statement names write `STATUS`. -/
theorem statusFieldsAndWriters : Obligations.StatusFieldsAndWriters := by
  unfold Obligations.StatusFieldsAndWriters
  refine ⟨forall_legalStatus (by decide), fun s v => regWrite_of_three_le (by decide) v s, ?_⟩
  intro s t k e e' hstep he he' hchanged
  rcases step_event hstep he he' with hevent | ⟨hreset, -⟩
  · refine .inr ?_
    cases hevent with
    | quiet hkeep => exact absurd hkeep.status hchanged
    | illegal hb hline => exact .inl ⟨hb, _, _, hline, rfl⟩
    | refused hb hline => exact .inl ⟨hb, _, _, hline, rfl⟩
    | accepted hb hline => exact .inl ⟨hb, _, _, hline, rfl⟩
    | byte => exact absurd rfl hchanged
    | fault hb _ _ hanswer => exact .inr ⟨hb, .inr hanswer⟩
    | completed hb _ heq => exact .inr ⟨hb, .inl heq⟩
  · exact .inl hreset

/-- Settles O27: every event and a reset keep `STATUS` legal; the table is checked on the five words. -/
theorem statusTakesFiveValues : Obligations.StatusTakesFiveValues := by
  unfold Obligations.StatusTakesFiveValues
  refine ⟨by decide, fun s t hlegal hstep => ?_,
    forall_legalStatus ⟨by decide, by decide, by decide, by decide, by decide⟩⟩
  exact forall_insts_of_step hstep hlegal (fun _ _ hlegal hevent => event_keeps_legalStatus hevent hlegal)
    fun _ _ _ => by simp [legalStatus]

/-- Settles O28: of the events only completion writes `DIGEST`. -/
theorem digestWrittenAtCompletionOnly : Obligations.DigestWrittenAtCompletionOnly := by
  unfold Obligations.DigestWrittenAtCompletionOnly
  refine ⟨?change, ?completes, fun s v => regWrite_of_three_le (by decide) v s⟩
  case change =>
    intro s t k e e' hstep he he' hchanged
    rcases step_event hstep he he' with hevent | ⟨hreset, -⟩
    · cases hevent with
      | quiet hkeep => exact absurd hkeep.digest hchanged
      | illegal | refused | accepted | byte | fault => exact absurd rfl hchanged
      | completed hb _ heq =>
        exact .inr ⟨hb, heq, busy_completionStep e, statusDone_completionStep e, digestValue_eq e.func e.acc⟩
    · exact .inl hreset
  case completes =>
    intro s i hactive hb hop hidx
    refine ⟨_, engineStep_completion hb hop hidx, ?_⟩
    rw [State.inst_setInst s hactive, completionStep_digest, digestValue_eq]

/-- Settles O29: the invariant's fold bounds `ACC`, and acceptance overwrites it. -/
theorem accumulatorHiddenAndReloaded : Obligations.AccumulatorHiddenAndReloaded := by
  unfold Obligations.AccumulatorHiddenAndReloaded
  refine ⟨?upperHalf, ?reloaded, fun _ _ _ => rfl⟩
  case upperHalf =>
    rintro s ⟨-, -, -, -, hinsts⟩ e hmem hb hwidth
    obtain ⟨-, hrun⟩ := hinsts e hmem
    obtain ⟨i, hop, -, -, -, -, hacc⟩ := hrun hb
    rw [← funcOf_of_opOfFunc hop] at hwidth
    rw [hacc]
    exact hashWord_lt hwidth _
  case reloaded =>
    rintro s t v a i ⟨hactive, -, hb⟩ hop hreference hwrite
    have hvalid := invalidReference_eq_false.mpr hreference
    have haccept : regWrite 2 v (s.setInst { s.inst with acc := a }) =
        .next (s.setInst (accept (funcOf i) (initAcc i) s.inst)) := by
      rw [regWrite_cmd, State.inst_setInst s hactive, State.setInst_setInst,
        State.setInst_cfg, cmdNext_accept (e := { s.inst with acc := a }) hb hop hvalid]
      rfl
    obtain rfl := Host.Outcome.next.inj (haccept.symm.trans hwrite)
    constructor
    · rw [regWrite_cmd, cmdNext_accept hb hop hvalid]
    · rw [State.inst_setInst s hactive, accept_acc]

/-- Settles O30: of the events acceptance clears `IDX`, a byte step adds 1, and no other changes it. -/
theorem idxCountsBytesConsumed : Obligations.IdxCountsBytesConsumed := by
  unfold Obligations.IdxCountsBytesConsumed
  refine ⟨?bounds, ?change, fun _ _ _ => rfl⟩
  case bounds =>
    rintro s ⟨-, -, -, -, hinsts⟩ e hmem
    obtain ⟨⟨-, -, hidx, -⟩, hrun⟩ := hinsts e hmem
    refine ⟨hidx, fun hb => ?_⟩
    obtain ⟨i, -, -, hle, hcount, -, -⟩ := hrun hb
    exact ⟨hle, hcount.symm⟩
  case change =>
    rintro s t k e e' ⟨-, -, -, -, hinsts⟩ hstep he he'
    obtain ⟨-, hrun⟩ := hinsts e (List.mem_of_getElem? he)
    rcases step_event hstep he he' with hevent | ⟨hreset, rfl⟩
    · cases hevent with
      | quiet hkeep =>
        refine ⟨fun hb hb' => ?_, fun hne => absurd hkeep.idx hne⟩
        rw [hkeep.busy, hb] at hb'; nomatch hb'
      | illegal hb => exact ⟨fun _ hb' => by simp [hb] at hb', fun hne => absurd rfl hne⟩
      | accepted hb => exact ⟨fun _ _ => rfl, fun _ => .inr (.inl ⟨hb, busy_accept _ _ _, rfl⟩)⟩
      | byte hb hop hlt =>
        obtain ⟨i, -, hvalid, -⟩ := hrun hb
        exact ⟨fun hidle => by simp [hb] at hidle, fun _ => .inr (.inr ⟨hb, hb, hlt, toNat_nextIdx hvalid hlt⟩)⟩
      | refused | fault | completed => exact ⟨fun _ hb' => by simp at hb', fun hne => absurd rfl hne⟩
    · exact ⟨fun _ hb' => by simp at hb', fun _ => .inl hreset⟩

/-! ### Obligations about reset -/

/-- Settles O22: by evaluation of the reset state, with `regValue` zero at each of the eight indices. -/
theorem resetRegisterValues : Obligations.ResetRegisterValues := by
  unfold Obligations.ResetRegisterValues
  have hreads : ∀ i : RegIndex, regValue i Instance.reset = 0 := by decide
  refine ⟨rfl, rfl, rfl, fun e he => ?_⟩
  obtain rfl := List.mem_singleton.mp he
  exact ⟨rfl, rfl, rfl, by decide, by decide, by decide, by decide, rfl, hreads⟩

/-- Settles O47: the one `Instance` is idle with zero registers, and no turn is listed. -/
theorem invariantHoldsAtReset : Obligations.InvariantHoldsAtReset := by
  unfold Obligations.InvariantHoldsAtReset
  refine ⟨⟨by decide, by decide, rfl, rfl, fun e he => ?_⟩, fun _ hturn => nomatch hturn⟩
  obtain rfl := List.mem_singleton.mp he
  exact ⟨by decide, running_of_idle (by decide)⟩

end Sys2Proof.Proofs
end

section
/-!
PROOF. Who shares what: other agents alone write memory (R33, R65), and the `Instance`s share no state (R34).
-/

namespace Sys2Proof.Proofs

open Sys2Proof Sys2Proof.Machine

/-- The turn of another agent's write is that write and nothing else (R65). -/
theorem step_memWrite {s t : State} {a : Nat} {b : Byte} (h : step s = .next t)
    (hturn : s.turns.head? = some (.memWrite a b)) :
    t = (s.setTurns s.turns.tail).setMem (Memory.write s.mem a b) := by
  obtain ⟨s0, rfl, ⟨k, -, hk | hk, -⟩ | ⟨k, -, hk | hk, -⟩ | ⟨hk, -⟩ | ⟨a', b', hk, -, ht⟩ | ⟨hk, -⟩⟩ := step_cases h
  case inr.inr.inr.inl =>
    rw [hturn] at hk
    obtain ⟨rfl, rfl⟩ := Turn.memWrite.inj (Option.some.inj hk)
    exact ht
  all_goals simp [hk] at hturn

/-- Settles O52: the frame of a step and the laws of a write to canonical memory. -/
theorem onlyOtherAgentsWriteMemory : Obligations.OnlyOtherAgentsWriteMemory := by
  unfold Obligations.OnlyOtherAgentsWriteMemory
  intro s t hstep hwf
  constructor
  · obtain ⟨-, -, -, hsame | ⟨a, b, hturn, -, -⟩⟩ := step_frame hstep
    · exact .inl hsame
    · exact .inr ⟨a, b, hturn⟩
  · intro a b hturn
    obtain rfl := step_memWrite hstep hturn
    refine ⟨?_, fun x hx => ?_, Memory.write_wf a b hwf, rfl⟩
    · rw [State.setMem_mem, Memory.read_write hwf, if_pos rfl]
    · rw [State.setMem_mem, Memory.read_write hwf, if_neg hx]

/-- R34: the turn of a host or an engine agent replaces its own `Instance` by one computed from it, the memory and
the parameters, in any machine that agrees on these. -/
theorem ownTurn_next {s t : State} {k : Nat} {u : Turn} (hu : u = .host k ∨ u = .engine k)
    (h : takeTurn u s = .next t) :
    ∃ e x, s.insts[k]? = some e ∧ t = (s.setActive k).setInst x ∧
      ∀ s' : State, s'.cfg = s.cfg → s'.mem = s.mem → s'.insts[k]? = some e →
        takeTurn u s' = .next ((s'.setActive k).setInst x) := by
  have hk : k < s.insts.length := by
    rcases hu with rfl | rfl <;> exact of_decide_eq_true (takeTurn_next_wf h)
  have he : s.insts[k]? = some s.insts[k] := List.getElem?_eq_getElem hk
  rcases hu with rfl | rfl
  · rw [takeTurn_host_eq he] at h
    refine ⟨_, _, he, (Host.Outcome.next.inj h).symm, fun s' hcfg _ he' => ?_⟩
    rw [takeTurn_host_eq he', hcfg]
  · rw [takeTurn_engine_eq he] at h
    cases hx : engineNext s.cfg s.mem s.insts[k] with
    | none => simp [hx] at h
    | some x =>
      rw [hx] at h
      refine ⟨_, x, he, (Host.Outcome.next.inj h).symm, fun s' hcfg hmem he' => ?_⟩
      rw [takeTurn_engine_eq he', hcfg, hmem, hx]

/-- Settles O55: the turn puts one `Instance` in place, and `ownTurn_next` says what that depends on. -/
theorem instancesShareNoState : Obligations.InstancesShareNoState := by
  unfold Obligations.InstancesShareNoState
  intro s t k u hu hturn
  obtain ⟨e, x, he, rfl, hlocal⟩ := ownTurn_next hu hturn
  refine ⟨fun j hj => State.setInst_other (s.setActive k) x j hj, rfl, rfl, fun s' hcfg hmem he' => ?_⟩
  have hs' : s'.insts[k]? = some e := he'.trans he
  obtain ⟨hk, -⟩ := List.getElem?_eq_some_iff.mp he
  obtain ⟨hk', -⟩ := List.getElem?_eq_some_iff.mp hs'
  exact ⟨_, hlocal s' hcfg hmem hs', by simp [hk, hk']⟩

end Sys2Proof.Proofs
end

section
/-!
PROOF. The reads of a command and their answers (R52, R55, R63).
-/

namespace Sys2Proof.Proofs

open Sys2Proof Sys2Proof.Machine

/-! ### The memory's answer (R52) -/

theorem memFaultAt_iff {c : Config} {a : Nat} :
    memFaultAt c a = true ↔ ∃ r ∈ c.memFault, r.lo ≤ a ∧ a < r.lo + r.size := by
  simp only [memFaultAt, List.any_eq_true, decide_eq_true_eq]

theorem memAnswer_eq_none_iff {c : Config} {m : Memory} {a : Nat} :
    memAnswer c m a = none ↔ memFaultAt c a = true := by
  unfold memAnswer
  split <;> simp [*]

theorem eq_read_of_memAnswer {c : Config} {m : Memory} {a : Nat} {b : Byte} (h : memAnswer c m a = some b) :
    b = Memory.read m a := by
  unfold memAnswer at h
  split at h
  · nomatch h
  · exact (Option.some.inj h).symm

/-- Settles O53: an answer is `fault` exactly where `memFaultAt` holds, and that is membership in a range. -/
theorem memoryAnswers : Obligations.MemoryAnswers := by
  unfold Obligations.MemoryAnswers
  exact fun _ _ _ => ⟨memAnswer_eq_none_iff.trans memFaultAt_iff, fun _ => eq_read_of_memAnswer⟩

/-! ### The engine steps of a running command (R93 to R95) -/

/-- What an engine step makes of a running command of operation `i`: the three rules, with the address `SRC + IDX`
that the invariant keeps from wrapping (R108). -/
inductive RunningStep (c : Config) (m : Memory) (i : Instr) (e : Instance) : Instance → Prop
  | byte {r : Byte} (hlt : e.idx.toNat < e.len.toNat)
      (hanswer : memAnswer c m (e.src.toNat + e.idx.toNat) = some r) :
      RunningStep c m i e (byteStep c.aw i r (recordRead (e.src.toNat + e.idx.toNat) (some r) e))
  | fault (hlt : e.idx.toNat < e.len.toNat) (hanswer : memAnswer c m (e.src.toNat + e.idx.toNat) = none) :
      RunningStep c m i e (raiseInvalidInput (recordRead (e.src.toNat + e.idx.toNat) none e))
  | completed (heq : e.idx = e.len) : RunningStep c m i e (completionStep e)

theorem runningStep_of_engineChange {c : Config} {m : Memory} {i : Instr} {e e' : Instance} (hb : e.busy = true)
    (hop : opOfFunc e.func = some i) (hrun : e.running c.aw i) (h : EngineChange c m e e') :
    RunningStep c m i e e' := by
  obtain ⟨hvalid, -⟩ := hrun
  rcases h with ⟨hidle, -⟩ | ⟨-, j, hj, hstep⟩
  · rw [hb] at hidle; nomatch hidle
  · obtain rfl := Option.some.inj (hop.symm.trans hj)
    rcases hstep with ⟨hlt, rfl⟩ | ⟨heq, rfl⟩
    · rw [byteAddress_of_valid hvalid hlt]
      cases hanswer : memAnswer c m (e.src.toNat + e.idx.toNat) with
      | some r => exact .byte hlt hanswer
      | none => exact .fault hlt hanswer
    · exact .completed heq

/-- An engine step of a busy engine agent in a state of the invariant is a step of a running command. -/
theorem engineStep_running {s t : State} (hinv : s.Inv) (hb : s.inst.busy = true) (h : engineStep s = .next t) :
    s.inst.status = 0x01 ∧ ∃ i, opOfFunc s.inst.func = some i ∧ s.inst.running s.cfg.aw i ∧
      RunningStep s.cfg s.mem i s.inst t.inst := by
  obtain ⟨-, hactive, -, -, hinsts⟩ := hinv
  obtain ⟨⟨-, -, -, hlegal⟩, hrun⟩ := hinsts s.inst (s.inst_mem hactive)
  obtain ⟨i, hop, hrunning⟩ := hrun hb
  obtain ⟨x, rfl, hchange⟩ := engineStep_change h
  rw [State.inst_setInst s hactive]
  exact ⟨status_of_busy hlegal hb, i, hop, hrunning, runningStep_of_engineChange hb hop hrunning hchange⟩

/-- R171: `STATUS` after a `fault` answer. -/
theorem status_raiseInvalidInput_recordRead {e : Instance} (hstatus : e.status = 0x01) (a : Nat) :
    (raiseInvalidInput (recordRead a none e)).status = 0x16 :=
  raiseInvalidInput_of_legal _ (by rw [recordRead_status, hstatus]; decide)

/-- R95: `STATUS` after completion. -/
theorem status_completionStep_of_running {e : Instance} (hstatus : e.status = 0x01) :
    (completionStep e).status = 0x02 := by
  rw [completionStep_status, hstatus, statusCompleted_of_running]

section RunningStep

variable {c : Config} {m : Memory} {i : Instr} {e e' : Instance}

/-- `BUSY` stays set at a byte step only. -/
theorem RunningStep.byte_of_busy (h : RunningStep c m i e e') (hb : e'.busy = true) :
    ∃ r, memAnswer c m (e.src.toNat + e.idx.toNat) = some r ∧
      e' = byteStep c.aw i r (recordRead (e.src.toNat + e.idx.toNat) (some r) e) := by
  cases h with
  | byte _ hanswer => exact ⟨_, hanswer, rfl⟩
  | fault => simp at hb
  | completed => simp at hb

/-- `STATUS` becomes 0x16 at a `fault` answer only. -/
theorem RunningStep.fault_of_status (h : RunningStep c m i e e') (hrunning : e.status = 0x01)
    (hstatus : e'.status = 0x16) :
    e.idx.toNat < e.len.toNat ∧ e' = raiseInvalidInput (recordRead (e.src.toNat + e.idx.toNat) none e) := by
  cases h with
  | byte => exact absurd (hrunning.symm.trans hstatus) (by decide)
  | fault hlt => exact ⟨hlt, rfl⟩
  | completed => exact absurd ((status_completionStep_of_running hrunning).symm.trans hstatus) (by decide)

/-- `STATUS` becomes 0x02 at completion only. -/
theorem RunningStep.completed_of_status (h : RunningStep c m i e e') (hrunning : e.status = 0x01)
    (hstatus : e'.status = 0x02) : e.idx = e.len ∧ e' = completionStep e := by
  cases h with
  | byte => exact absurd (hrunning.symm.trans hstatus) (by decide)
  | fault => exact absurd ((status_raiseInvalidInput_recordRead hrunning _).symm.trans hstatus) (by decide)
  | completed heq => exact ⟨heq, rfl⟩

/-- R95: the empty message is complete at the first engine step. -/
theorem RunningStep.completed_of_len_zero (h : RunningStep c m i e e') (hlen : e.len = 0) :
    e' = completionStep e := by
  cases h with
  | byte hlt => simp [hlen] at hlt
  | fault hlt => simp [hlen] at hlt
  | completed => rfl

end RunningStep

/-! ### The reads of a command (R55) -/

/-- The reads of a running command are those of bytes 0 to `IDX - 1`, each answered with a byte (R55, R61). -/
theorem reads_of_running {aw : Nat} {i : Instr} {e : Instance} (h : e.running aw i) :
    (answeredBytes e.reads).length = e.idx.toNat ∧ readsFrom e.src.toNat (answeredBytes e.reads) = e.reads := by
  obtain ⟨-, -, hcount, hreads, -⟩ := h
  exact ⟨by rw [← hcount, ← length_readsFrom e.src.toNat, ← hreads], hreads.symm⟩

/-- A write of `CMD` leaves the list of reads, unless it is an acceptance and sets `BUSY` (R90 to R92). -/
theorem cmdNext_reads {aw : Nat} {v : Word} {e : Instance} (hidle : (cmdNext aw v e).busy = false) :
    (cmdNext aw v e).reads = e.reads := by
  unfold cmdNext at hidle ⊢
  cases hb : e.busy
  case true => rfl
  case false =>
    cases hop : decode v with
    | operation i =>
      cases hv : invalidReference aw e.src e.len
      · simp [hb, hop, hv] at hidle
      · rfl
    | illegalZeroField => rfl
    | illegalFunc => rfl

/-- R33, R55: no write to the register port writes memory. -/
theorem regWrite_mem {i : RegIndex} {v : Word} {s t : State} (h : regWrite i v s = .next t) : t.mem = s.mem := by
  rw [regWrite_eq] at h
  obtain rfl := Host.Outcome.next.inj h
  rfl

/-- R33, R55: no engine step writes memory. -/
theorem engineStep_mem {s t : State} (h : engineStep s = .next t) : t.mem = s.mem := by
  obtain ⟨x, rfl, -⟩ := engineStep_change h
  rfl

/-- Settles O50: the reads the invariant lists, and the one read that a `fault` answer adds. -/
theorem readsOfACommand : Obligations.ReadsOfACommand := by
  unfold Obligations.ReadsOfACommand
  refine ⟨?completed, ?refused, ?fault, ?empty, ?memory⟩
  case completed =>
    intro s t hinv hb hstep hstatus
    obtain ⟨hrunning, i, -, hrun, hrule⟩ := engineStep_running hinv hb hstep
    obtain ⟨hidx, hdone⟩ := hrule.completed_of_status hrunning hstatus
    obtain ⟨hcount, hreads⟩ := reads_of_running hrun
    exact ⟨answeredBytes s.inst.reads, by rw [hcount, hidx], by rw [hdone, completionStep_reads, hreads]⟩
  case refused =>
    rintro s t v ⟨hactive, -, -⟩ hwrite hstatus
    rw [regWrite_cmd] at hwrite
    obtain rfl := Host.Outcome.next.inj hwrite
    rw [State.inst_setInst s hactive] at hstatus ⊢
    exact cmdNext_reads ((congrArg statusBusy hstatus).trans (by decide))
  case fault =>
    intro s t hinv hb hstep hstatus
    obtain ⟨hrunning, i, -, hrun, hrule⟩ := engineStep_running hinv hb hstep
    obtain ⟨hlt, hfault⟩ := hrule.fault_of_status hrunning hstatus
    obtain ⟨hcount, hreads⟩ := reads_of_running hrun
    refine ⟨⟨answeredBytes s.inst.reads, hcount, hlt, ?_⟩,
      engineStep_idle t (by rw [hfault, busy_raiseInvalidInput])⟩
    rw [hfault, hreads, raiseInvalidInput_reads, recordRead_reads]
  case empty =>
    intro s t hinv hb hlen hstep
    obtain ⟨hrunning, i, -, ⟨-, hle, hcount, -⟩, hrule⟩ := engineStep_running hinv hb hstep
    have hzero : s.inst.reads.length = 0 := by rw [hlen] at hle; exact hcount.trans (Nat.le_zero.mp hle)
    rw [hrule.completed_of_len_zero hlen]
    exact ⟨List.length_eq_zero_iff.mp hzero, status_completionStep_of_running hrunning⟩
  case memory =>
    rintro s t i v (hwrite | hstep)
    · exact regWrite_mem hwrite
    · exact engineStep_mem hstep

/-! ### The digest is the fold of the answers (R63) -/

/-- R27, R96: the digest of a message has no more bits than its operation's width. -/
theorem digestValue_hashWord (i : Instr) (m : List Byte) : digestValue (funcOf i) (hashWord i m) = hashWord i m := by
  have hzext : ∀ (f : FuncNo) (x : Word32), digestValue f (zext64 x) = zext64 x := fun f x => by
    unfold digestValue
    split
    · rfl
    · rw [trunc32_zext64]
  cases i with
  | hash_djb2_32 | hash_djb2_32_xor | hash_fnv1a_32 | hash_fnv1a_32_opt | hash_sdbm_32 => exact hzext _ _
  | hash_djb2_64 | hash_djb2_64_xor | hash_fnv1a_64 | hash_fnv1a_64_opt | hash_sdbm_64 => rfl

/-- Settles O51: a byte step records the memory's answer of its own state, and a completion writes the fold that the
invariant keeps in `ACC`. -/
theorem digestIsFoldOfBytesAsAnswered : Obligations.DigestIsFoldOfBytesAsAnswered := by
  unfold Obligations.DigestIsFoldOfBytesAsAnswered
  constructor
  · intro s t hinv hb hstep hbusy
    obtain ⟨-, i, -, -, hrule⟩ := engineStep_running hinv hb hstep
    obtain ⟨r, hanswer, hbyte⟩ := hrule.byte_of_busy hbusy
    rw [hanswer, hbyte]
    exact ⟨Option.some_ne_none r, rfl⟩
  · intro s t hinv hb hstep hstatus
    obtain ⟨hrunning, i, hop, hrun, hrule⟩ := engineStep_running hinv hb hstep
    obtain ⟨hidx, hdone⟩ := hrule.completed_of_status hrunning hstatus
    obtain ⟨hcount, -⟩ := reads_of_running hrun
    obtain ⟨-, -, -, -, hacc⟩ := hrun
    refine ⟨i, hop, ?_, by rw [hdone, completionStep_reads, hcount, hidx]⟩
    rw [hdone, completionStep_digest, completionStep_reads, hacc, ← funcOf_of_opOfFunc hop, digestValue_hashWord]

end Sys2Proof.Proofs
end

section
/-!
PROOF. The command word (R70 to R74): a word is its two fields, each field of a command word is the one it was built
from, and so decoding and encoding are inverse. The illegal words are those with a reserved field set.
-/

namespace Sys2Proof.Proofs

open Sys2Proof Sys2Proof.Machine

/-! ### The decoder against the encoder -/

/-- R70: the two fields make up the whole word. -/
theorem zeroField_append_funcField (v : Word) : zeroField v ++ funcField v = v := by
  apply BitVec.eq_of_toNat_eq
  have hzero : (zeroField v).toNat = v.toNat / 16 := by
    rw [zeroField, BitVec.extractLsb'_toNat, Nat.shiftRight_eq_div_pow]
    exact Nat.mod_eq_of_lt (by have := v.isLt; omega)
  rw [BitVec.toNat_append, ← Nat.shiftLeft_add_eq_or_of_lt (funcField v).isLt, Nat.shiftLeft_eq, hzero,
    toNat_funcField]
  omega

@[simp] theorem zeroField_encode (i : Instr) : zeroField (encode i) = 0 := by cases i <;> decide

@[simp] theorem funcField_encode (i : Instr) : funcField (encode i) = funcOf i := by cases i <;> decide

@[simp] theorem decode_encode (i : Instr) : decode (encode i) = .operation i := by simp [decode_eq_operation]

/-- R72: every bit of a command word is fixed. -/
theorem decode_eq_operation_iff {v : Word} {i : Instr} : decode v = .operation i ↔ v = encode i := by
  refine ⟨fun h => ?_, fun h => h ▸ decode_encode i⟩
  obtain ⟨hzero, hfunc⟩ := decode_eq_operation.mp h
  calc v = zeroField v ++ funcField v := (zeroField_append_funcField v).symm
    _ = (0 : BitVec 60) ++ funcOf i := by rw [hzero, funcOf_of_opOfFunc hfunc]
    _ = encode i := rfl

theorem encode_injective {i j : Instr} (h : encode i = encode j) : i = j :=
  Decoded.operation.inj ((decode_encode i).symm.trans (decode_eq_operation_iff.mpr h))

/-! ### The illegal words -/

theorem decode_of_zeroField_ne_zero {v : Word} (h : zeroField v ≠ 0) : decode v = .illegalZeroField := if_pos h

theorem decode_of_reserved_func {v : Word} (hzero : zeroField v = 0) (hfunc : 10 ≤ (funcField v).toNat) :
    decode v = .illegalFunc := by
  simp [decode, hzero, (opOfFunc_eq_none _).mpr hfunc]

/-- R72, R73: with `ZERO` clear and `FUNC` below 10 the word is the operation of that number. -/
theorem decode_of_func_lt {v : Word} (hzero : zeroField v = 0) (hfunc : (funcField v).toNat < 10) :
    ∃ i, decode v = .operation i ∧ funcOf i = funcField v := by
  obtain ⟨i, hop⟩ : ∃ i, opOfFunc (funcField v) = some i :=
    Option.ne_none_iff_exists'.mp fun hnone => by have := (opOfFunc_eq_none _).mp hnone; omega
  exact ⟨i, decode_eq_operation.mpr ⟨hzero, hop⟩, funcOf_of_opOfFunc hop⟩

/-- R74: a word is illegal exactly when its `FUNC` is reserved or a bit of `ZERO` is set. -/
theorem illegal_iff_fields (v : Word) :
    (∀ i, decode v ≠ .operation i) ↔ (10 ≤ (funcField v).toNat ∨ zeroField v ≠ 0) := by
  constructor
  · intro hillegal
    by_contra! hlegal
    obtain ⟨hfunc, hzero⟩ := hlegal
    obtain ⟨i, hop, -⟩ := decode_of_func_lt hzero hfunc
    exact hillegal i hop
  · intro hreserved i hop
    obtain ⟨hzero, hfunc⟩ := decode_eq_operation.mp hop
    rcases hreserved with hge | hne
    · rw [(opOfFunc_eq_none _).mpr hge] at hfunc
      nomatch hfunc
    · exact hne hzero

/-! ### Obligations about the command word -/

/-- Settles O3: by fields, by the ten encodings, and by the one effect of an illegal word on a ready `Instance`. -/
theorem reservedCommandWordsAreIllegal : Obligations.ReservedCommandWordsAreIllegal := by
  unfold Obligations.ReservedCommandWordsAreIllegal
  refine ⟨illegal_iff_fields, fun v => forall_congr' fun i => not_congr decode_eq_operation_iff,
    fun i j => encode_injective, ?_⟩
  rintro v s ⟨-, hlegal, hb⟩ hillegal
  calc regWrite 2 v s = writeCmd v s := rfl
    _ = .next (s.setInst (raiseIllegalCmd s.inst)) := writeCmd_illegal hb hillegal
    _ = .next (s.setInst { s.inst with status := 0x26 }) := by rw [raiseIllegalCmd_eq hlegal hb]

/-- Settles O2: one decoding lemma per branch of R73, with the fields read as quotient and remainder by 16. -/
theorem decodeIsTotalByFields : Obligations.DecodeIsTotalByFields := by
  unfold Obligations.DecodeIsTotalByFields
  intro v
  simp only [ne_eq, ← zeroField_eq_zero, ← toNat_funcField]
  refine ⟨decode_of_zeroField_ne_zero, decode_of_reserved_func, fun hzero hfunc => ?_⟩
  obtain ⟨i, hop, hnumber⟩ := decode_of_func_lt hzero hfunc
  exact ⟨i, hop, congrArg BitVec.toNat hnumber⟩

/-- Settles O1: the ten rows by evaluation, and that no other word names the operation. -/
theorem commandTableRows : Obligations.CommandTableRows := by
  unfold Obligations.CommandTableRows
  refine ⟨?_, fun v i => decode_eq_operation_iff.mp⟩
  simp only [List.forall_mem_cons, List.not_mem_nil, false_implies, implies_true]
  decide

/-! ### The obligation about the host's lines -/

/-- R77: what a host whose next line is `WAIT` makes of its `Instance`. -/
theorem hostNext_wait {aw : Nat} {e : Instance} {rest : List HostLine} (hline : e.todo = .wait :: rest) :
    hostNext aw e = regRead 3 (e.setTodo (if statusDone e.status then rest else .wait :: rest)) := by
  have hself : e.setTodo (.wait :: rest) = e := by rw [← hline, setTodo_todo_self]
  unfold hostNext
  rw [hline]
  cases hdone : statusDone e.status with
  | true => rfl
  | false => exact congrArg (regRead 3) hself.symm

/-- Settles O32: the host's turn replaces its `Instance` by `hostNext` of it, which is one read of `STATUS`. -/
theorem waitAndHashLines : Obligations.WaitAndHashLines := by
  unfold Obligations.WaitAndHashLines
  refine ⟨fun s k ts e rest hturn he hline => ?_, fun f ptr len => rfl⟩
  rw [step, hturn]
  calc takeTurn (.host k) (s.setTurns ts)
      = .next (((s.setTurns ts).setActive k).setInst (hostNext s.cfg.aw e)) := takeTurn_host_eq he
    _ = _ := by rw [hostNext_wait hline]; rfl

end Sys2Proof.Proofs
end

section
/-!
PROOF. The digest as a fold (R96), and the truncation law (R106): `trunc32` is a homomorphism of the primitives, so
of the steps made of them, so of their folds.
-/

namespace Sys2Proof.Proofs

open Sys2Proof Sys2Proof.Machine

theorem widthOf_eq_32_iff {f : FuncNo} : widthOf f = 32 ↔ f.getLsbD 0 = false := by
  unfold widthOf
  cases f.getLsbD 0 <;> decide

/-- Settles O21: the empty fold, one more byte, and the bound on the digest of a 32-bit operation. -/
theorem digestIsTheFold : Obligations.DigestIsTheFold := by
  unfold Obligations.DigestIsTheFold
  exact ⟨hashWord_nil, hashWord_snoc, fun _ m hwidth => hashWord_lt (widthOf_eq_32_iff.mp hwidth) m⟩

/-! ### Truncation of the primitives -/

section Truncation

variable (a b : Word)

@[simp] theorem trunc32_addW : trunc32 (addW a b) = addW (trunc32 a) (trunc32 b) :=
  BitVec.setWidth_add a b (by decide)

@[simp] theorem trunc32_mulW : trunc32 (mulW a b) = mulW (trunc32 a) (trunc32 b) :=
  BitVec.setWidth_mul a b (by decide)

@[simp] theorem trunc32_xorW : trunc32 (xorW a b) = xorW (trunc32 a) (trunc32 b) := BitVec.setWidth_xor

/-- A borrow from above bit 31 does not reach the low half. -/
@[simp] theorem trunc32_subW : trunc32 (subW a b) = subW (trunc32 a) (trunc32 b) := by
  have hb : b.toNat < 2 ^ 64 := b.isLt
  apply BitVec.eq_of_toNat_eq
  rw [toNat_trunc32, toNat_subW, toNat_subW, toNat_trunc32, toNat_trunc32]
  omega

/-- A left shift is a multiplication, at either width. -/
@[simp] theorem trunc32_shlW (k : Nat) : trunc32 (shlW a k) = shlW (trunc32 a) k := by
  have hpow : trunc32 (BitVec.ofNat 64 (2 ^ k)) = BitVec.ofNat 32 (2 ^ k) :=
    BitVec.setWidth_ofNat_of_le (by decide) (2 ^ k)
  rw [shlW_eq_mulW, trunc32_mulW, hpow, shlW_eq_mulW]

end Truncation

/-! ### Truncation of the digests -/

theorem digestDjb2_32_eq_trunc32 (m : List Byte) : digestDjb2_32 m = trunc32 (digestDjb2_64 m) := by
  refine List.foldl_hom trunc32 (init := initDjb2_64) fun acc r => ?_
  simp [stepDjb2_32, stepDjb2_64]

theorem digestDjb2Xor_32_eq_trunc32 (m : List Byte) : digestDjb2Xor_32 m = trunc32 (digestDjb2Xor_64 m) := by
  refine List.foldl_hom trunc32 (init := initDjb2Xor_64) fun acc r => ?_
  simp [stepDjb2Xor_32, stepDjb2Xor_64]

theorem digestSdbm_32_eq_trunc32 (m : List Byte) : digestSdbm_32 m = trunc32 (digestSdbm_64 m) := by
  refine List.foldl_hom trunc32 (init := initSdbm_64) fun acc r => ?_
  simp [stepSdbm_32, stepSdbm_64]

/-- A 64-bit value and its low half are the same integer exactly when its upper half is clear. -/
theorem toNat_trunc32_eq_iff (x : Word) : (trunc32 x).toNat = x.toNat ↔ x.toNat < 2 ^ 32 := by
  rw [toNat_trunc32]
  exact Nat.mod_eq_iff_lt (by decide)

/-- Settles O16: the homomorphism laws, and messages of one, three and four bytes `0x61` for the limits. -/
theorem truncationLaw : Obligations.TruncationLaw := by
  unfold Obligations.TruncationLaw
  refine ⟨?primitives, ?families, ⟨[0x61], by decide⟩, ⟨[0x61], by decide⟩, ?sameInteger, by decide, by decide⟩
  case primitives =>
    exact fun a b => ⟨trunc32_addW a b, trunc32_subW a b, trunc32_mulW a b, trunc32_xorW a b,
      fun k _ => trunc32_shlW a k⟩
  case families =>
    exact fun m => ⟨digestDjb2_32_eq_trunc32 m, digestDjb2Xor_32_eq_trunc32 m, digestSdbm_32_eq_trunc32 m⟩
  case sameInteger =>
    intro m
    rw [digestDjb2_32_eq_trunc32, digestDjb2Xor_32_eq_trunc32, digestSdbm_32_eq_trunc32]
    exact ⟨toNat_trunc32_eq_iff _, toNat_trunc32_eq_iff _, toNat_trunc32_eq_iff _⟩

end Sys2Proof.Proofs
end

section
/-!
PROOF. Commands: acceptance and the two errors from a ready `Instance` (R90 to R92), and what the ten commands leave
unchanged (R22, R23, R27, R55).
-/

namespace Sys2Proof.Proofs

open Sys2Proof Sys2Proof.Machine

/-! ### The three outcomes of a command written while idle -/

/-- R171: with a legal `STATUS`, `InvalidInput` is `STATUS` 0x16 and nothing else. -/
theorem raiseInvalidInput_eq {e : Instance} (hlegal : e.status ∈ legalStatus) :
    raiseInvalidInput e = { e with status := 0x16 } := by
  rw [← raiseInvalidInput_of_legal e hlegal]; rfl

/-- R92: with a legal `STATUS`, acceptance leaves `STATUS` 0x01. -/
theorem accept_eq (f : FuncNo) (init : Word) {e : Instance} (hlegal : e.status ∈ legalStatus) :
    accept f init e = { e with func := f, acc := init, idx := 0, status := 0x01, reads := [] } := by
  rw [← statusAccepted_of_legal _ hlegal]; rfl

/-- R70, R72: the number of a decoded operation is the word's `FUNC` field. -/
theorem funcOf_of_decode {v : Word} {i : Instr} (hop : decode v = .operation i) : funcOf i = v.extractLsb' 0 4 :=
  funcOf_of_opOfFunc (decode_eq_operation.mp hop).2

/-- R91: a legal command written while idle on an invalid reference is refused. -/
theorem cmdNext_refuse {aw : Nat} {v : Word} {i : Instr} {e : Instance} (hb : e.busy = false)
    (hop : decode v = .operation i) (hinvalid : invalidReference aw e.src e.len = true) :
    cmdNext aw v e = raiseInvalidInput e := by
  simp [cmdNext, hb, hop, hinvalid]

/-- R92: what acceptance makes of an idle `Instance`, in full. -/
theorem cmdNext_accept_eq {aw : Nat} {v : Word} {i : Instr} {e : Instance} (hlegal : e.status ∈ legalStatus)
    (hb : e.busy = false) (hop : decode v = .operation i) (hvalid : validReference aw e.src e.len) :
    cmdNext aw v e =
      { e with func := v.extractLsb' 0 4, acc := initAcc i, idx := 0, status := 0x01, reads := [] } := by
  rw [cmdNext_accept hb hop (invalidReference_eq_false.mpr hvalid), accept_eq _ _ hlegal, funcOf_of_decode hop]

/-- R92: a legal command written to a ready `Instance` on a valid reference. -/
theorem regWrite_accept {s : State} {v : Word} {i : Instr} (hready : s.ready) (hop : decode v = .operation i)
    (hvalid : validReference s.cfg.aw s.inst.src s.inst.len) :
    regWrite 2 v s = .next (s.setInst
      { s.inst with func := v.extractLsb' 0 4, acc := initAcc i, idx := 0, status := 0x01, reads := [] }) := by
  obtain ⟨-, hlegal, hb⟩ := hready
  rw [regWrite_cmd, cmdNext_accept_eq hlegal hb hop hvalid]

/-- Settles O33: neither illegal decoding is an operation, and such a word raises `IllegalCmd`. -/
theorem illegalCommandRaisesIllegalCmd : Obligations.IllegalCommandRaisesIllegalCmd := by
  unfold Obligations.IllegalCommandRaisesIllegalCmd
  intro s v hready hword
  have hillegal : ∀ i, decode v ≠ .operation i := by
    rcases hword with hword | hword <;> simp [hword]
  obtain ⟨-, -, -, hraises⟩ := commandRegisterIsAnEvent
  exact ⟨hraises s v hready hillegal, by decide⟩

/-- Settles O34: the two ways the reference can be, by R91's condition. -/
theorem invalidReferenceRaisesInvalidInput : Obligations.InvalidReferenceRaisesInvalidInput := by
  unfold Obligations.InvalidReferenceRaisesInvalidInput
  intro s v i hready hop
  have ⟨hactive, hlegal, hb⟩ := hready
  constructor
  · intro hlen hreference
    have hinvalid : invalidReference s.cfg.aw s.inst.src s.inst.len = true := decide_eq_true ⟨hlen, hreference⟩
    rw [regWrite_cmd, cmdNext_refuse hb hop hinvalid, raiseInvalidInput_eq hlegal]
  · intro hlen
    exact ⟨_, regWrite_accept hready hop (.inl hlen), by rw [State.inst_setInst s hactive]⟩

/-- Settles O35: acceptance in full, and the port of a busy `Instance` drops writes. -/
theorem commandAcceptance : Obligations.CommandAcceptance := by
  unfold Obligations.CommandAcceptance
  exact fun s v i hready hop hvalid => ⟨regWrite_accept hready hop hvalid, by decide, by decide, by decide, by decide,
    fun t x hb => ⟨regWrite_busy 0 x t hb, regWrite_busy 1 x t hb⟩⟩

/-! ### Frames -/

/-- A write to `STATUS` under a mask within bits 0 to 2 and 4 to 7 leaves every reserved bit (R25). -/
theorem getLsbD_setBits_reserved {mask : Word} (hbit3 : mask.getLsbD 3 = false) (hlow : mask.toNat < 2 ^ 8)
    (w v : Word) {n : Nat} (hn : n = 3 ∨ 8 ≤ n) : (setBits w mask v).getLsbD n = w.getLsbD n := by
  have hmask : mask.getLsbD n = false := by
    rcases hn with rfl | hn
    · exact hbit3
    · exact Nat.testBit_lt_two_pow (hlow.trans_le (Nat.pow_le_pow_right (by decide) hn))
  simp [getLsbD_setBits, hmask]

section ReservedBits

variable {n : Nat} (hn : n = 3 ∨ 8 ≤ n) (b : Bool) (w : Word)
include hn

theorem getLsbD_setBusy_reserved : (setBusy b w).getLsbD n = w.getLsbD n :=
  getLsbD_setBits_reserved (by decide) (by decide) w _ hn

theorem getLsbD_setDone_reserved : (setDone b w).getLsbD n = w.getLsbD n :=
  getLsbD_setBits_reserved (by decide) (by decide) w _ hn

theorem getLsbD_setErr_reserved : (setErr b w).getLsbD n = w.getLsbD n :=
  getLsbD_setBits_reserved (by decide) (by decide) w _ hn

theorem getLsbD_setErrCode_reserved (c : BitVec 4) : (setErrCode c w).getLsbD n = w.getLsbD n :=
  getLsbD_setBits_reserved (by decide) (by decide) w _ hn

end ReservedBits

/-- What a command and an engine step alike leave of their `Instance`: the operands, the host's side, and the
reserved bits of `STATUS`. -/
structure KeepsOperands (e e' : Instance) : Prop where
  src : e'.src = e.src
  len : e'.len = e.len
  todo : e'.todo = e.todo
  seen : e'.seen = e.seen
  reserved : ∀ n, n = 3 ∨ 8 ≤ n → e'.status.getLsbD n = e.status.getLsbD n

theorem KeepsOperands.refl (e : Instance) : KeepsOperands e e := ⟨rfl, rfl, rfl, rfl, fun _ _ => rfl⟩

theorem keepsOperands_accept (f : FuncNo) (init : Word) (e : Instance) : KeepsOperands e (accept f init e) where
  src := rfl
  len := rfl
  todo := rfl
  seen := rfl
  reserved n hn := by
    simp only [accept_status, statusAccepted, getLsbD_setErrCode_reserved hn, getLsbD_setErr_reserved hn,
      getLsbD_setDone_reserved hn, getLsbD_setBusy_reserved hn]

theorem keepsOperands_raiseInvalidInput (e : Instance) : KeepsOperands e (raiseInvalidInput e) where
  src := rfl
  len := rfl
  todo := rfl
  seen := rfl
  reserved n hn := by
    simp only [raiseInvalidInput_status, getLsbD_setErrCode_reserved hn, getLsbD_setErr_reserved hn,
      getLsbD_setDone_reserved hn, getLsbD_setBusy_reserved hn]

theorem keepsOperands_completionStep (e : Instance) : KeepsOperands e (completionStep e) where
  src := rfl
  len := rfl
  todo := rfl
  seen := rfl
  reserved n hn := by
    simp only [completionStep_status, statusCompleted, getLsbD_setDone_reserved hn, getLsbD_setBusy_reserved hn]

theorem keepsOperands_readStep (aw : Nat) (i : Instr) (a : Nat) (ans : Option Byte) (e : Instance) :
    KeepsOperands e (readStep aw i a ans e) := by
  cases ans with
  | some r => exact ⟨rfl, rfl, rfl, rfl, fun _ _ => rfl⟩
  | none =>
    obtain ⟨hsrc, hlen, htodo, hseen, hreserved⟩ := keepsOperands_raiseInvalidInput (recordRead a none e)
    exact ⟨hsrc, hlen, htodo, hseen, hreserved⟩

/-- A relation to the old active `Instance` that holds of it and of the one put in place holds of the one found
afterwards, even when the active index is out of range and nothing is put. -/
theorem inst_setInst_of {s : State} {e : Instance} (P : Instance → Prop) (hold : P s.inst) (hnew : P e) :
    P (s.setInst e).inst := by
  by_cases hactive : s.active < s.insts.length
  · rwa [State.inst_setInst s hactive]
  · have hsame : s.insts.set s.active e = s.insts := List.set_eq_of_length_le (Nat.not_lt.mp hactive)
    simpa only [State.inst, State.setInst, hsame] using hold

/-- What a command leaves of its `Instance`: what `KeepsOperands` says, `DIGEST`, and the reads unless it empties
them. -/
structure CommandKeeps (e e' : Instance) : Prop extends KeepsOperands e e' where
  digest : e'.digest = e.digest
  reads : e'.reads = e.reads ∨ e'.reads = []

/-- A command replaces the active `Instance` by one that keeps operands, `DIGEST` and the host's side. -/
theorem exec_next {i : Instr} {s t : State} (h : exec i s = .next t) :
    ∃ e, t = s.setInst e ∧ CommandKeeps s.inst e := by
  rw [exec_eq_commandOp] at h
  rcases commandOp_cases (funcOf i) (initAcc i) s with ⟨-, hnext⟩ | ⟨-, -, hnext⟩ | ⟨-, -, hnext⟩ <;>
    obtain rfl := Host.Outcome.next.inj (hnext.symm.trans h)
  · exact ⟨s.inst, s.setInst_inst.symm, .refl _, rfl, .inl rfl⟩
  · exact ⟨_, rfl, keepsOperands_raiseInvalidInput _, rfl, .inl rfl⟩
  · exact ⟨_, rfl, keepsOperands_accept _ _ _, rfl, .inr rfl⟩

/-- Settles O36: a command replaces the active `Instance` only, by one that `CommandKeeps` describes. -/
theorem commandFrame : Obligations.CommandFrame := by
  unfold Obligations.CommandFrame
  intro i s t h
  obtain ⟨e, rfl, hkeeps⟩ := exec_next h
  have hframe : CommandKeeps s.inst (s.setInst e).inst :=
    inst_setInst_of (CommandKeeps s.inst) ⟨.refl _, rfl, .inl rfl⟩ hkeeps
  exact ⟨fun _ => rfl, rfl, rfl, rfl, rfl, rfl, by simp, State.setInst_other s e, hframe.src, hframe.len, hframe.digest,
    hframe.todo, hframe.seen, hframe.reads, hframe.reserved⟩

end Sys2Proof.Proofs
end

section
/-!
PROOF. The engine agent's steps (R93 to R95): each in full from a running `Instance`, their frame (R55), the address
they read (R108), and that there always is one (R99).
-/

namespace Sys2Proof.Proofs

open Sys2Proof Sys2Proof.Machine

/-! ### The three engine steps in full -/

theorem engineStep_of_engineNext {s : State} {x : Instance} (h : engineNext s.cfg s.mem s.inst = some x) :
    engineStep s = .next (s.setInst x) := by
  rw [engineStep_eq, h]

/-- An engine step after another `Instance` was put in place of the active one. -/
theorem engineStep_setInst {s : State} {x y : Instance} (hactive : s.active < s.insts.length)
    (h : engineNext s.cfg s.mem x = some y) : engineStep (s.setInst x) = .next (s.setInst y) := by
  rw [engineStep_of_engineNext (x := y) (by rwa [State.inst_setInst s hactive]), State.setInst_setInst]

/-- R30: within a message `IDX + 1` does not wrap. -/
theorem toNat_idx_add_one {idx len : Word} (hlt : idx.toNat < len.toNat) : (idx + 1).toNat = idx.toNat + 1 := by
  have hlen : len.toNat < 2 ^ 64 := len.isLt
  rw [BitVec.toNat_add]
  exact Nat.mod_eq_of_lt (by simp; omega)

/-- R26: `STATUS` 0x01 has `BUSY` set. -/
theorem busy_of_status {e : Instance} (hstatus : e.status = 0x01) : e.busy = true := by
  rw [Instance.busy, hstatus]; decide

section EngineNext

variable {c : Config} {m : Memory} {i : Instr} {e : Instance} (hstatus : e.status = 0x01)
  (hop : opOfFunc e.func = some i)
include hstatus hop

/-- R93, R94, R108: with bytes left the engine agent reads the byte at `SRC + IDX`. -/
theorem engineNext_read (hvalid : validReference c.aw e.src e.len) (hlt : e.idx.toNat < e.len.toNat) :
    engineNext c m e =
      some (readStep c.aw i (e.src.toNat + e.idx.toNat) (memAnswer c m (e.src.toNat + e.idx.toNat)) e) := by
  have hb := busy_of_status hstatus
  simp [engineNext, hb, hop, hlt, byteAddress_of_valid (invalidReference_eq_false.mpr hvalid) hlt]

/-- R93: the byte step. -/
theorem engineNext_byte {r : Byte} (hvalid : validReference c.aw e.src e.len) (hlt : e.idx.toNat < e.len.toNat)
    (hanswer : memAnswer c m (e.src.toNat + e.idx.toNat) = some r) :
    engineNext c m e = some
      { e with
        acc := stepAcc i e.acc r
        idx := e.idx + 1
        reads := e.reads ++ [{ addr := e.src.toNat + e.idx.toNat, answer := some r }] } := by
  have hidx : nextIdx c.aw e.idx = e.idx + 1 := by
    apply BitVec.eq_of_toNat_eq
    rw [toNat_nextIdx (invalidReference_eq_false.mpr hvalid) hlt, toNat_idx_add_one hlt]
  rw [engineNext_read hstatus hop hvalid hlt, hanswer, ← hidx]
  rfl

/-- R94: the fault step. -/
theorem engineNext_fault (hvalid : validReference c.aw e.src e.len) (hlt : e.idx.toNat < e.len.toNat)
    (hanswer : memAnswer c m (e.src.toNat + e.idx.toNat) = none) :
    engineNext c m e = some
      { e with
        status := 0x16
        reads := e.reads ++ [{ addr := e.src.toNat + e.idx.toNat, answer := none }] } := by
  rw [engineNext_read hstatus hop hvalid hlt, hanswer,
    ← status_raiseInvalidInput_recordRead hstatus (e.src.toNat + e.idx.toNat)]
  rfl

/-- R95: the completion step. -/
theorem engineNext_completion (hidx : e.idx = e.len) :
    engineNext c m e = some
      { e with
        digest := digestValue e.func e.acc
        status := 0x02 } := by
  have hb := busy_of_status hstatus
  have hnext : engineNext c m e = some (completionStep e) := by simp [engineNext, hb, hop, hidx]
  rw [hnext, ← status_completionStep_of_running hstatus]
  rfl

end EngineNext

/-- Settles O40: the byte step of the active `Instance`, and `IDX + 1` within the message. -/
theorem byteStepFoldsOneByte : Obligations.ByteStepFoldsOneByte := by
  unfold Obligations.ByteStepFoldsOneByte
  rintro s f i r ⟨-, hstatus, rfl, hvalid, hlt⟩ hop hanswer
  exact ⟨engineStep_of_engineNext (engineNext_byte hstatus hop hvalid hlt hanswer), toNat_idx_add_one hlt⟩

/-- Settles O41: the fault step of the active `Instance`; no address lies in a range of an empty `MemFault`. -/
theorem faultStepRaisesInvalidInput : Obligations.FaultStepRaisesInvalidInput := by
  unfold Obligations.FaultStepRaisesInvalidInput
  constructor
  · rintro s f i ⟨-, hstatus, rfl, hvalid, hlt⟩ hop hanswer
    exact engineStep_of_engineNext (engineNext_fault hstatus hop hvalid hlt hanswer)
  · intro c m a hempty hfault
    obtain ⟨r, hr, -⟩ := memFaultAt_iff.mp (memAnswer_eq_none_iff.mp hfault)
    rw [hempty] at hr
    nomatch hr

/-- Settles O42: the completion step; after the acceptance of an empty message it is the first engine step. -/
theorem completionStepWritesDigest : Obligations.CompletionStepWritesDigest := by
  unfold Obligations.CompletionStepWritesDigest
  constructor
  · intro s i _ hstatus hop hidx
    rw [← digestValue_eq]
    exact ⟨engineStep_of_engineNext (engineNext_completion hstatus hop hidx), by decide⟩
  · rintro s v i ⟨hactive, hlegal, hb⟩ hdecode hlen
    have hwrite : regWrite 2 v s = .next (s.setInst (accept (funcOf i) (initAcc i) s.inst)) := by
      rw [regWrite_cmd, cmdNext_accept hb hdecode (invalidReference_eq_false.mpr (.inl hlen))]
    have hstatus : (accept (funcOf i) (initAcc i) s.inst).status = 0x01 := statusAccepted_of_legal _ hlegal
    have hnext := engineNext_completion (c := s.cfg) (m := s.mem) hstatus (opOfFunc_funcOf i) hlen.symm
    refine ⟨_, _, hwrite, engineStep_setInst hactive hnext, ?_⟩
    rw [State.inst_setInst s hactive]
    have hdigest : digestValue (funcOf i) (initAcc i) = initAcc i := by rw [← hashWord_nil, digestValue_hashWord]
    have hidle : statusBusy 0x02 = false := by decide
    exact ⟨rfl, hdigest, engineStep_idle _ (by rw [State.inst_setInst s hactive]; exact hidle)⟩

/-! ### The frame of an engine step -/

theorem func_readStep (aw : Nat) (i : Instr) (a : Nat) (ans : Option Byte) (e : Instance) :
    (readStep aw i a ans e).func = e.func := by
  cases ans <;> rfl

theorem engineChange_keepsOperands {c : Config} {m : Memory} {e e' : Instance} (h : EngineChange c m e e') :
    KeepsOperands e e' ∧ e'.func = e.func := by
  rcases h with ⟨-, rfl⟩ | ⟨-, i, -, ⟨-, rfl⟩ | ⟨-, rfl⟩⟩
  · exact ⟨.refl _, rfl⟩
  · exact ⟨keepsOperands_readStep _ _ _ _ _, func_readStep _ _ _ _ _⟩
  · exact ⟨keepsOperands_completionStep _, rfl⟩

/-- Settles O43: an engine step replaces the active `Instance` only, by one with operands and `FUNC` kept. -/
theorem engineStepFrame : Obligations.EngineStepFrame := by
  unfold Obligations.EngineStepFrame
  intro s t h
  obtain ⟨e, rfl, hchange⟩ := engineStep_change h
  obtain ⟨hkeeps, hfunc⟩ := inst_setInst_of (fun x => KeepsOperands s.inst x ∧ x.func = s.inst.func)
    ⟨.refl _, rfl⟩ (engineChange_keepsOperands hchange)
  refine ⟨fun _ => rfl, rfl, rfl, rfl, rfl, rfl, by simp, State.setInst_other s e, hkeeps.src, hkeeps.len, hfunc,
    hkeeps.todo, hkeeps.seen, hkeeps.reserved, fun hidle => ?_⟩
  exact Host.Outcome.next.inj (h.symm.trans (engineStep_idle s hidle))

/-! ### The address read -/

/-- R59: a valid message that is not empty starts above address 0 and ends at the top of the source space at most. -/
theorem reference_bounds {aw : Nat} {src len : Word} (hvalid : validReference aw src len) (hlen : 0 < len.toNat) :
    0 < src.toNat ∧ src.toNat + len.toNat ≤ 2 ^ aw := by
  rcases hvalid with rfl | ⟨hsrc, htop⟩
  · nomatch hlen
  · exact ⟨Nat.pos_of_ne_zero fun hzero => hsrc (BitVec.eq_of_toNat_eq hzero), htop⟩

/-- Settles O54: the invariant holds a running command's reference valid, which bounds every address of it. -/
theorem addressesNeverWrap : Obligations.AddressesNeverWrap := by
  unfold Obligations.AddressesNeverWrap
  rintro s ⟨-, -, -, -, hinsts⟩ e hmem hb hlt
  obtain ⟨-, hrun⟩ := hinsts e hmem
  obtain ⟨i, -, hvalid, -⟩ := hrun hb
  obtain ⟨hsrc, htop⟩ := reference_bounds (invalidReference_eq_false.mp hvalid) (by omega)
  exact ⟨byteAddress_of_valid hvalid hlt, by omega, by omega, by omega, toNat_nextIdx hvalid hlt⟩

/-! ### There always is a step -/

/-- R99: the engine agent of an `Instance` of the invariant always has a rule to follow. -/
theorem engineNext_of_inv {c : Config} {m : Memory} {e : Instance} (hinv : e.Inv c.aw) :
    ∃ x, engineNext c m e = some x ∧ EngineChange c m e x := by
  obtain ⟨-, hrun⟩ := hinv
  cases hb : e.busy
  case false => exact ⟨e, by simp [engineNext, hb], .inl ⟨hb, rfl⟩⟩
  case true =>
    obtain ⟨i, hmem, -, hle, -⟩ := hrun hb
    have hop : opOfFunc e.func = some i := hmem
    by_cases hlt : e.idx.toNat < e.len.toNat
    · exact ⟨_, by simp [engineNext, hb, hop, hlt], .inr ⟨hb, i, hop, .inl ⟨hlt, rfl⟩⟩⟩
    · have heq : e.idx = e.len := BitVec.eq_of_toNat_eq (by omega)
      exact ⟨completionStep e, by simp [engineNext, hb, hop, heq], .inr ⟨hb, i, hop, .inr ⟨heq, rfl⟩⟩⟩

/-- A well-formed turn is taken in a state of the invariant. -/
theorem takeTurn_next {s : State} {u : Turn} (hinsts : ∀ e ∈ s.insts, e.Inv s.cfg.aw)
    (hwf : Turn.wf s.cfg.aw s.insts.length u = true) : ∃ t, takeTurn u s = .next t := by
  cases u with
  | host k => exact ⟨_, takeTurn_host_eq (List.getElem?_eq_getElem (of_decide_eq_true hwf))⟩
  | engine k =>
    have hk : k < s.insts.length := of_decide_eq_true hwf
    obtain ⟨x, hnext, -⟩ := engineNext_of_inv (m := s.mem) (hinsts _ (List.getElem_mem hk))
    exact ⟨_, by rw [takeTurn_engine_eq (List.getElem?_eq_getElem hk), hnext]⟩
  | reset => exact ⟨_, takeTurn_reset s⟩
  | memWrite a b => exact ⟨_, takeTurn_memWrite b (of_decide_eq_true hwf)⟩

/-- The move made when no turn is listed is a turn of an `Instance` that is there, or nothing. -/
theorem defaultMove_next {s : State} (hinsts : ∀ e ∈ s.insts, e.Inv s.cfg.aw) : ∃ t, defaultMove s = .next t := by
  unfold defaultMove
  split
  · rename_i k hfound
    obtain ⟨-, hk, -⟩ := firstWith_some hfound
    rw [← takeTurn_engine (by simpa using hk)]
    exact takeTurn_next hinsts (by simpa [Turn.wf] using hk)
  · split
    · rename_i k hfound
      obtain ⟨-, hk, -⟩ := firstWith_some hfound
      rw [← takeTurn_host (by simpa using hk)]
      exact takeTurn_next hinsts (by simpa [Turn.wf] using hk)
    · exact ⟨s, rfl⟩

/-- A step uses up its turn and lists no other. -/
theorem step_turns {s t : State} (h : step s = .next t) : t.turns = s.turns.tail := by
  obtain ⟨s0, rfl, ⟨k, hk, -, hhost⟩ | ⟨k, -, -, hengine⟩ | ⟨-, rfl⟩ | ⟨a, b, -, -, rfl⟩ | ⟨hnone, -, rfl⟩⟩ :=
    step_cases h
  · obtain ⟨x, hx, -⟩ := hostStep_change (s := (s.setTurns s.turns.tail).setActive k) hk
    obtain rfl := Host.Outcome.next.inj (hx.symm.trans hhost)
    rfl
  · obtain ⟨x, rfl, -⟩ := engineStep_change hengine
    rfl
  · rfl
  · rfl
  · rw [hnone, List.tail_nil]

/-- Settles O49: a listed turn is well formed and taken, the move without one is made, and no turn is added. -/
theorem stepNeverStops : Obligations.StepNeverStops := by
  unfold Obligations.StepNeverStops
  rintro s ⟨-, -, -, -, hinsts⟩ hturns
  obtain ⟨t, hstep⟩ : ∃ t, step s = .next t := by
    unfold step
    split
    · rename_i u us hlisted
      exact takeTurn_next (s := s.setTurns us) hinsts (hturns u (by simp [hlisted]))
    · exact defaultMove_next hinsts
  refine ⟨t, hstep, fun u hu => ?_⟩
  obtain ⟨hcfg, hlength, -⟩ := step_frame hstep
  rw [step_turns hstep] at hu
  rw [hcfg, hlength]
  exact hturns u (List.mem_of_mem_tail hu)

end Sys2Proof.Proofs
end

section
/-!
PROOF. Runs of one command: engine turns taken one after another (R97, R99). Along such a run only the active `Instance`
and the list of turns change, so each state of it is the first one with these two replaced.
-/

namespace Sys2Proof.Proofs

open Sys2Proof Sys2Proof.Machine

/-! ### Engine turns of the active `Instance` -/

theorem engineTurns_succ (k n : Nat) : engineTurns k (n + 1) = .engine k :: engineTurns k n := rfl

section EngineTurns

variable {s : State} (hactive : s.active < s.insts.length)
include hactive

/-- One engine turn makes of the active `Instance` what `engineNext` says. -/
theorem step_engineTurn {x y : Instance} {ts : List Turn} (hnext : engineNext s.cfg s.mem x = some y) :
    step ((s.setInst x).setTurns (.engine s.active :: ts)) = .next ((s.setInst y).setTurns ts) := by
  have hx : ((s.setInst x).setTurns ts).insts[s.active]? = some x := by simp [hactive]
  calc step ((s.setInst x).setTurns (.engine s.active :: ts))
      = takeTurn (.engine s.active) ((s.setInst x).setTurns ts) := rfl
    _ = .next (((s.setTurns ts).setInst x).setInst y) := by
      rw [takeTurn_engine_eq hx, State.setTurns_cfg, State.setInst_cfg, State.setTurns_mem, State.setInst_mem, hnext]
      rfl
    _ = .next ((s.setInst y).setTurns ts) := by rw [State.setInst_setInst]; rfl

/-- R99: the turns of an idle engine agent pass without effect. -/
theorem runSteps_idle {x : Instance} (hidle : x.busy = false) (ts : List Turn) (n : Nat) :
    runSteps n ((s.setInst x).setTurns (engineTurns s.active n ++ ts)) = .next ((s.setInst x).setTurns ts) := by
  have hnext : engineNext s.cfg s.mem x = some x := by simp [engineNext, hidle]
  induction n with
  | zero => rfl
  | succ n ih => rw [engineTurns_succ, List.cons_append, runSteps_next n (step_engineTurn hactive hnext), ih]

end EngineTurns

/-! ### A running command ends (R99) -/

@[simp] theorem statusDone_setErr (b : Bool) (w : Word) : statusDone (setErr b w) = statusDone w := by
  simp only [statusDone, setErr, getLsbD_setBits]; rfl

@[simp] theorem statusDone_setErrCode (c : BitVec 4) (w : Word) : statusDone (setErrCode c w) = statusDone w := by
  simp only [statusDone, setErrCode, getLsbD_setBits]; rfl

/-- R171: `InvalidInput` sets `DONE`. -/
theorem statusDone_raiseInvalidInput (e : Instance) : statusDone (raiseInvalidInput e).status = true := by simp

section RunningStep

variable {c : Config} {m : Memory} {i : Instr} {e e' : Instance}

/-- R93 to R95: every engine step of a running command adds a read or clears `BUSY`. -/
theorem RunningStep.ne (h : RunningStep c m i e e') (hb : e.busy = true) : e' ≠ e := by
  intro hsame
  cases h with
  | byte => exact absurd (congrArg Instance.reads hsame) (by simp)
  | fault => exact absurd (congrArg Instance.reads hsame) (by simp)
  | completed =>
    have hidle := busy_completionStep e
    rw [hsame, hb] at hidle
    nomatch hidle

/-- After an engine step the command has ended, or it goes on with one byte fewer left. -/
theorem RunningStep.ended_or_advanced (h : RunningStep c m i e e') (hrun : e.running c.aw i) :
    (e'.busy = false ∧ statusDone e'.status = true) ∨
    (e'.busy = e.busy ∧ e'.len.toNat - e'.idx.toNat + 1 = e.len.toNat - e.idx.toNat) := by
  obtain ⟨hvalid, -⟩ := hrun
  cases h with
  | byte hlt =>
    have hidx := toNat_nextIdx hvalid hlt
    refine .inr ⟨rfl, ?_⟩
    simp only [byteStep_idx, byteStep_len, recordRead_idx, recordRead_len]
    omega
  | fault => exact .inl ⟨busy_raiseInvalidInput _, statusDone_raiseInvalidInput _⟩
  | completed => exact .inl ⟨busy_completionStep e, statusDone_completionStep e⟩

end RunningStep

/-- R99: the engine agent of a running `Instance` takes a `RunningStep`, which keeps the invariant. -/
theorem exists_runningStep {c : Config} {m : Memory} {e : Instance} (haw : c.aw ≤ 64) (hinv : e.Inv c.aw)
    (hb : e.busy = true) :
    ∃ i x, engineNext c m e = some x ∧ x.Inv c.aw ∧ e.running c.aw i ∧ RunningStep c m i e x := by
  obtain ⟨x, hnext, hchange⟩ := engineNext_of_inv (m := m) hinv
  have hinv' := event_keeps_inv haw (event_of_engineChange hchange) hinv
  obtain ⟨-, hrun⟩ := hinv
  obtain ⟨i, hop, hrunning⟩ := hrun hb
  exact ⟨i, x, hnext, hinv', hrunning,
    runningStep_of_engineChange hb hop hrunning hchange⟩

/-- R99: with `n` bytes left a running command has ended after `n + 1` engine turns. -/
theorem runSteps_ends {s : State} (hactive : s.active < s.insts.length) (haw : s.cfg.aw ≤ 64) (ts : List Turn)
    (n : Nat) :
    ∀ x : Instance, x.Inv s.cfg.aw → x.busy = true → x.len.toNat - x.idx.toNat = n →
      ∃ y, runSteps (n + 1) ((s.setInst x).setTurns (engineTurns s.active (n + 1) ++ ts)) =
          .next ((s.setInst y).setTurns ts) ∧
        y.busy = false ∧ statusDone y.status = true := by
  induction n with
  | zero =>
    intro x hinv hb hleft
    obtain ⟨i, y, hnext, -, hrun, hstep⟩ := exists_runningStep (m := s.mem) haw hinv hb
    obtain hended | ⟨-, hadvanced⟩ := hstep.ended_or_advanced hrun
    · exact ⟨y, runSteps_next 0 (step_engineTurn hactive hnext), hended⟩
    · omega
  | succ n ih =>
    intro x hinv hb hleft
    obtain ⟨i, y, hnext, hinv', hrun, hstep⟩ := exists_runningStep (m := s.mem) haw hinv hb
    rw [engineTurns_succ, List.cons_append, runSteps_next (n + 1) (step_engineTurn hactive hnext)]
    obtain ⟨hidle, hdone⟩ | ⟨hbusy, hadvanced⟩ := hstep.ended_or_advanced hrun
    · exact ⟨y, runSteps_idle hactive hidle ts (n + 1), hidle, hdone⟩
    · exact ih y hinv' (hbusy.trans hb) (by omega)

/-- Settles O46: a step of a running command changes its `Instance`, and the bytes left bound the turns it takes. -/
theorem commandEndsWithinLenPlusOneSteps : Obligations.CommandEndsWithinLenPlusOneSteps := by
  unfold Obligations.CommandEndsWithinLenPlusOneSteps
  rintro s ⟨hwf, hactive, -, -, hinsts⟩ hb
  have haw := aw_le_of_wf hwf
  have hinv := hinsts s.inst (s.inst_mem hactive)
  constructor
  · obtain ⟨i, x, hnext, -, -, hstep⟩ := exists_runningStep (m := s.mem) haw hinv hb
    refine ⟨_, engineStep_of_engineNext hnext, fun hsame => hstep.ne hb ?_⟩
    rw [← State.inst_setInst s hactive x, hsame]
  · intro ts hturns
    obtain ⟨y, hrun, hidle, hdone⟩ := runSteps_ends hactive haw ts _ s.inst hinv hb rfl
    rw [← hturns, State.setInst_inst, State.setTurns_turns_self] at hrun
    refine ⟨_, hrun, rfl, ?_⟩
    rw [State.setTurns_inst, State.inst_setInst s hactive]
    exact ⟨hidle, hdone⟩

/-! ### The run theorem (R97) -/

/-- The active `Instance` after the acceptance of the word `v` of operation `i` and the byte steps of the bytes `m`,
with the host's lines `rest` left. -/
def afterBytes (v : Word) (i : Instr) (rest : List HostLine) (e : Instance) (m : List Byte) : Instance :=
  { e with
    todo := rest
    func := v.extractLsb' 0 4
    acc := hashWord i m
    idx := BitVec.ofNat 64 m.length
    status := 0x01
    reads := readsFrom e.src.toNat m }

/-- What the two run theorems assume alike: a legal command is the host's next line, its turn and those of the engine
agent come next, and the memory answers the bytes `m` at the start of a valid message. -/
structure RunSetting (s : State) (v : Word) (i : Instr) (m : List Byte) (ts : List Turn) (rest : List HostLine) :
    Prop where
  ready : s.ready
  operation : decode v = .operation i
  within : m.length ≤ s.inst.len.toNat
  valid : validReference s.cfg.aw s.inst.src s.inst.len
  answers : ∀ (j : Nat) (h : j < m.length), memAnswer s.cfg s.mem (s.inst.src.toNat + j) = some m[j]
  turns : s.turns = .host s.active :: (engineTurns s.active (m.length + 1) ++ ts)
  line : s.inst.todo = .wr 2 v :: rest

section AfterBytes

variable {c : Config} {mem : Memory} {v : Word} {i : Instr} {rest : List HostLine} {e : Instance} {m : List Byte}

theorem toNat_afterBytes_idx (hwithin : m.length ≤ e.len.toNat) : (afterBytes v i rest e m).idx.toNat = m.length :=
  Nat.mod_eq_of_lt (hwithin.trans_lt e.len.isLt)

theorem opOfFunc_afterBytes (hop : decode v = .operation i) : opOfFunc (afterBytes v i rest e m).func = some i :=
  (decode_eq_operation.mp hop).2

/-- R92: acceptance is the run before its first byte. -/
theorem hostNext_accept {aw : Nat} (hlegal : e.status ∈ legalStatus) (hb : e.busy = false)
    (hop : decode v = .operation i) (hvalid : validReference aw e.src e.len) (hline : e.todo = .wr 2 v :: rest) :
    hostNext aw e = afterBytes v i rest e [] := by
  have hcmd : hostNext aw e = cmdNext aw v (e.setTodo rest) := by
    unfold hostNext
    rw [hline]
    rfl
  rw [hcmd, cmdNext_accept_eq (e := e.setTodo rest) hlegal hb hop hvalid, afterBytes, hashWord_nil]
  rfl

/-- R96: what one byte more changes. -/
theorem afterBytes_snoc (r : Byte) : afterBytes v i rest e (m ++ [r]) =
    { afterBytes v i rest e m with
      acc := stepAcc i (hashWord i m) r
      idx := BitVec.ofNat 64 m.length + 1
      reads := readsFrom e.src.toNat m ++ [{ addr := e.src.toNat + m.length, answer := some r }] } := by
  have hidx : BitVec.ofNat 64 (m ++ [r]).length = BitVec.ofNat 64 m.length + 1 := by
    rw [List.length_append]; exact BitVec.ofNat_add m.length 1
  rw [afterBytes, hashWord_snoc, readsFrom_snoc, hidx]
  rfl

/-- R93, R96: a byte step folds one byte more. -/
theorem engineNext_afterBytes {r : Byte} (hop : decode v = .operation i) (hvalid : validReference c.aw e.src e.len)
    (hlt : m.length < e.len.toNat) (hanswer : memAnswer c mem (e.src.toNat + m.length) = some r) :
    engineNext c mem (afterBytes v i rest e m) = some (afterBytes v i rest e (m ++ [r])) := by
  have hidx : (afterBytes v i rest e m).idx.toNat = m.length := toNat_afterBytes_idx hlt.le
  have hbyte := engineNext_byte (c := c) (m := mem) (e := afterBytes v i rest e m) (r := r) rfl
    (opOfFunc_afterBytes hop) hvalid (by rwa [hidx]) (by rwa [hidx])
  rw [hidx] at hbyte
  rw [hbyte, afterBytes_snoc]
  rfl

end AfterBytes

section Run

variable {s : State} {v : Word} {i : Instr} {m : List Byte} {ts : List Turn} {rest : List HostLine}
  (h : RunSetting s v i m ts rest)
include h

/-- R92: the step that writes the command. -/
theorem RunSetting.step_accept :
    step s = .next ((s.setInst (afterBytes v i rest s.inst [])).setTurns
      (engineTurns s.active (m.length + 1) ++ ts)) := by
  obtain ⟨hactive, hlegal, hb⟩ := h.ready
  have hinst : s.insts[s.active]? = some s.inst := by rw [State.inst_eq_getElem s hactive, List.getElem?_eq_getElem]
  calc step s
      = takeTurn (.host s.active) (s.setTurns (engineTurns s.active (m.length + 1) ++ ts)) := by rw [step, h.turns]
    _ = .next ((s.setInst (hostNext s.cfg.aw s.inst)).setTurns (engineTurns s.active (m.length + 1) ++ ts)) :=
      takeTurn_host_eq hinst
    _ = _ := by rw [hostNext_accept hlegal hb h.operation h.valid h.line]

/-- R97: the state after the acceptance and `j` byte steps. -/
theorem RunSetting.runSteps_bytes : ∀ j ≤ m.length, runSteps (1 + j) s =
    .next ((s.setInst (afterBytes v i rest s.inst (m.take j))).setTurns
      (engineTurns s.active (m.length + 1 - j) ++ ts)) := by
  obtain ⟨hactive, -, -⟩ := h.ready
  intro j
  induction j with
  | zero => exact fun _ => runSteps_next 0 h.step_accept
  | succ j ih =>
    intro hj
    have hjlt : j < m.length := hj
    have hlength : (m.take j).length = j := List.length_take_of_le hjlt.le
    have hlt : (m.take j).length < s.inst.len.toNat := by have := h.within; omega
    have hnext : engineNext s.cfg s.mem (afterBytes v i rest s.inst (m.take j)) =
        some (afterBytes v i rest s.inst (m.take (j + 1))) := by
      rw [← List.take_append_getElem hjlt]
      exact engineNext_afterBytes h.operation h.valid hlt (by rw [hlength]; exact h.answers j hjlt)
    have hleft : m.length + 1 - j = (m.length + 1 - (j + 1)) + 1 := by omega
    rw [← Nat.add_assoc, runSteps_add (ih hjlt.le), hleft]
    exact runSteps_next 0 (step_engineTurn hactive hnext)

/-- The engine turn after the byte steps. -/
theorem RunSetting.runSteps_last {x : Instance}
    (hnext : engineNext s.cfg s.mem (afterBytes v i rest s.inst m) = some x) :
    runSteps (1 + m.length + 1) s = .next ((s.setInst x).setTurns ts) := by
  obtain ⟨hactive, -, -⟩ := h.ready
  have hbytes := h.runSteps_bytes m.length le_rfl
  rw [List.take_length, Nat.add_sub_cancel_left] at hbytes
  rw [runSteps_add hbytes]
  exact runSteps_next 0 (step_engineTurn hactive hnext)

end Run

/-- Settles O44: `runSteps_bytes` up to the last byte, and then the completion step. -/
theorem runOfOneCommand : Obligations.RunOfOneCommand := by
  unfold Obligations.RunOfOneCommand
  intro s v i m ts rest hready hop hlen hvalid hanswers hturns hline
  have h : RunSetting s v i m ts rest := ⟨hready, hop, hlen.ge, hvalid, hanswers, hturns, hline⟩
  constructor
  · intro j hj
    have hbytes := h.runSteps_bytes j hj
    rw [afterBytes, List.length_take_of_le hj] at hbytes
    exact hbytes
  · have hidx : BitVec.ofNat 64 m.length = s.inst.len := by rw [← hlen, BitVec.ofNat_toNat, BitVec.setWidth_eq]
    have hlast := h.runSteps_last (engineNext_completion rfl (opOfFunc_afterBytes hop) hidx)
    have hdigest : digestValue (v.extractLsb' 0 4) (hashWord i m) = hashWord i m := by
      rw [← funcOf_of_decode hop, digestValue_hashWord]
    simp only [afterBytes, hidx, hdigest] at hlast
    exact hlast

/-- Settles O45: `runSteps_bytes` up to the byte that faults, and then the fault step. -/
theorem runThatMeetsAFault : Obligations.RunThatMeetsAFault := by
  unfold Obligations.RunThatMeetsAFault
  intro s v i m ts rest hready hop hlt hvalid hanswers hfault hturns hline
  have h : RunSetting s v i m ts rest := ⟨hready, hop, hlt.le, hvalid, hanswers, hturns, hline⟩
  have hidx : (afterBytes v i rest s.inst m).idx.toNat = m.length := toNat_afterBytes_idx hlt.le
  have hlast := h.runSteps_last
    (engineNext_fault rfl (opOfFunc_afterBytes hop) hvalid (by rwa [hidx]) (by rwa [hidx]))
  rw [hidx] at hlast
  exact hlast

end Sys2Proof.Proofs
end

section
/-!
PROOF. The rule of an operation, as `OperationContract` says it, once for all ten: acceptance and refusal (R91, R92)
and the three engine steps (R93 to R95), with the operation's own `init` and `step`.
-/

namespace Sys2Proof.Proofs

open Sys2Proof Sys2Proof.Machine

/-- R24: a command is what the write of its word makes of the active `Instance`. -/
theorem exec_eq_cmdNext (i : Instr) (s : State) :
    exec i s = .next (s.setInst (cmdNext s.cfg.aw (encode i) s.inst)) := by
  rw [← writeCmd_operation (decode_encode i), writeCmd_eq]

/-- R92: a command on a valid reference from a ready `Instance`. -/
theorem exec_accept {i : Instr} {s : State} (hready : s.ready)
    (hvalid : validReference s.cfg.aw s.inst.src s.inst.len) :
    exec i s = .next (s.setInst
      { s.inst with func := funcOf i, acc := initAcc i, idx := 0, status := 0x01, reads := [] }) := by
  obtain ⟨-, hlegal, hb⟩ := hready
  rw [exec_eq_cmdNext, cmdNext_accept hb (decode_encode i) (invalidReference_eq_false.mpr hvalid), accept_eq _ _ hlegal]

/-- R91: a command on an absent or invalid reference from a ready `Instance`. -/
theorem exec_refuse {i : Instr} {s : State} (hready : s.ready)
    (hinvalid : ¬ validReference s.cfg.aw s.inst.src s.inst.len) :
    exec i s = .next (s.setInst { s.inst with status := 0x16 }) := by
  obtain ⟨-, hlegal, hb⟩ := hready
  have hreference : invalidReference s.cfg.aw s.inst.src s.inst.len = true :=
    Bool.eq_true_of_not_eq_false (mt invalidReference_eq_false.mp hinvalid)
  rw [exec_eq_cmdNext, cmdNext_refuse hb (decode_encode i) hreference, raiseInvalidInput_eq hlegal]

/-- Every operation meets its contract with the number, word, initial constant and step that the model gives it;
the rule of an operation then writes these four out. -/
theorem operationContract (i : Instr) :
    OperationContract i (funcOf i) (encode i) (initAcc i) (stepAcc i) := by
  have hop {s : State} (hfunc : s.inst.func = funcOf i) : opOfFunc s.inst.func = some i := by
    rw [hfunc, opOfFunc_funcOf]
  refine ⟨decode_encode i, rfl, rfl, fun _ => exec_accept, fun _ => exec_refuse, ?byte, ?fault, ?completion⟩
  case byte =>
    rintro s r ⟨-, hstatus, hfunc, hvalid, hlt⟩ hanswer
    exact engineStep_of_engineNext (engineNext_byte hstatus (hop hfunc) hvalid hlt hanswer)
  case fault =>
    rintro s ⟨-, hstatus, hfunc, hvalid, hlt⟩ hanswer
    exact engineStep_of_engineNext (engineNext_fault hstatus (hop hfunc) hvalid hlt hanswer)
  case completion =>
    intro s _ hstatus hfunc hidx
    rw [← digestValue_eq, ← hfunc]
    exact engineStep_of_engineNext (engineNext_completion hstatus (hop hfunc) hidx)

end Sys2Proof.Proofs
end

section
/-!
PROOF. DJB2 (R120 to R122): the shift-and-add step is `acc * 33 + b`, so a digest is the fold over the integers
reduced modulo `2^W`; that fold's closed form bounds it, hence the message lengths that wrap.
-/

namespace Sys2Proof.Proofs

open Sys2Proof Sys2Proof.Machine

/-! ### Folds that multiply by a constant and add the byte -/

/-- R101: reduction commutes with the fold, because `BitVec.ofNat` commutes with its step. -/
theorem foldl_addW_mulW_ofNat (w p init : Nat) (m : List Byte) :
    m.foldl (fun acc r => addW (mulW acc (BitVec.ofNat w p)) (r.setWidth w)) (BitVec.ofNat w init) =
      BitVec.ofNat w (m.foldl (fun a b => a * p + b.toNat) init) := by
  refine List.foldl_hom (BitVec.ofNat w) fun a r => ?_
  rw [BitVec.ofNat_add, BitVec.ofNat_mul, BitVec.ofNat_toNat]
  rfl

/-- R122: the fold over the integers in closed form. -/
theorem foldl_mul_add_eq (p init : Nat) (m : List Byte) :
    m.foldl (fun a b => a * p + b.toNat) init = init * p ^ m.length + weightedSum p m := by
  induction m generalizing init with
  | nil => simp [weightedSum]
  | cons b m ih => rw [List.foldl_cons, ih, weightedSum, List.length_cons, pow_succ]; ring

/-- A geometric bound on the sum over the bytes, each of which is at most 255. -/
theorem weightedSum_lt {p c : Nat} (hc : 0 < c) (hp : 255 + c ≤ c * p) (m : List Byte) :
    weightedSum p m < c * p ^ m.length := by
  induction m with
  | nil => simpa [weightedSum] using hc
  | cons b m ih =>
    have hb : b.toNat ≤ 255 := Nat.le_of_lt_succ b.isLt
    calc weightedSum p (b :: m)
      _ < 255 * p ^ m.length + c * p ^ m.length := Nat.add_lt_add_of_le_of_lt (Nat.mul_le_mul_right _ hb) ih
      _ = (255 + c) * p ^ m.length := by ring
      _ ≤ c * p * p ^ m.length := Nat.mul_le_mul_right _ hp
      _ = c * p ^ (b :: m).length := by rw [List.length_cons, pow_succ]; ring

/-! ### Multiplication by 33 -/

/-- R122, at every width: `shl_W(acc, 5) = mul_W(acc, 32)`, and 32 + 1 = 33. -/
theorem addW_shlW_five {w : Nat} (acc : BitVec w) : addW (shlW acc 5) acc = mulW acc 33 := by
  have hconst : (33 : BitVec w).toNat = 33 % 2 ^ w := BitVec.toNat_ofNat 33 w
  have hsum : acc.toNat * 2 ^ 5 + acc.toNat = acc.toNat * 33 := by ring
  apply BitVec.eq_of_toNat_eq
  rw [toNat_addW, toNat_shlW, toNat_mulW, hconst, Nat.mod_add_mod, Nat.mul_mod_mod, hsum]

theorem stepDjb2_32_eq (acc b : Word32) : stepDjb2_32 acc b = addW (mulW acc 33) b := by
  rw [stepDjb2_32, addW_shlW_five]

theorem stepDjb2_64_eq (acc b : Word) : stepDjb2_64 acc b = addW (mulW acc 33) b := by
  rw [stepDjb2_64, addW_shlW_five]

theorem toNat_digestDjb2_32 (m : List Byte) : (digestDjb2_32 m).toNat = djb2Unreduced m % 2 ^ 32 := by
  simp only [digestDjb2_32, stepDjb2_32_eq]
  exact congrArg BitVec.toNat (foldl_addW_mulW_ofNat 32 33 5381 m)

theorem toNat_digestDjb2_64 (m : List Byte) : (digestDjb2_64 m).toNat = djb2Unreduced m % 2 ^ 64 := by
  simp only [digestDjb2_64, stepDjb2_64_eq]
  exact congrArg BitVec.toNat (foldl_addW_mulW_ofNat 64 33 5381 m)

/-! ### Bounds on the unreduced fold -/

theorem djb2Unreduced_eq (m : List Byte) : djb2Unreduced m = 5381 * 33 ^ m.length + weightedSum 33 m :=
  foldl_mul_add_eq 33 5381 m

theorem le_djb2Unreduced (m : List Byte) : 5381 * 33 ^ m.length ≤ djb2Unreduced m := by
  rw [djb2Unreduced_eq]
  exact Nat.le_add_right _ _

/-- R120, R121: `5389 = 5381 + 8`, and 8 exceeds the factor `255 / 32` of the geometric sum. -/
theorem djb2Unreduced_lt {m : List Byte} {n : Nat} (hlen : m.length ≤ n) : djb2Unreduced m < 5389 * 33 ^ n := by
  have hsum : weightedSum 33 m < 8 * 33 ^ m.length := weightedSum_lt (by decide) (by decide) m
  have hpow : 33 ^ m.length ≤ 33 ^ n := Nat.pow_le_pow_right (by decide) hlen
  rw [djb2Unreduced_eq]
  omega

/-! ### Obligations -/

/-- Settles O5: the contract of every operation, with its number, word, `init` and `step` evaluated; the bounds on
the unreduced fold at 3 and 4 bytes; the values by evaluation. -/
theorem hashDjb2_32Rule : Obligations.HashDjb2_32Rule := by
  unfold Obligations.HashDjb2_32Rule
  refine ⟨operationContract .hash_djb2_32, rfl, ?noWrap, ?wrap, ?values⟩
  case noWrap =>
    intro m hlen
    have hlt : djb2Unreduced m < 2 ^ 32 := (djb2Unreduced_lt hlen).trans (by decide)
    rw [toNat_digestDjb2_32, Nat.mod_eq_of_lt hlt]
  case wrap =>
    intro m hlen
    have hle : 5381 * 33 ^ 4 ≤ djb2Unreduced m := hlen ▸ le_djb2Unreduced m
    exact le_trans (by decide) hle
  case values => decide

/-- Settles O6: as O5, with the bounds at 10 and 11 bytes and the truncation law of DJB2. -/
theorem hashDjb2_64Rule : Obligations.HashDjb2_64Rule := by
  unfold Obligations.HashDjb2_64Rule
  refine ⟨operationContract .hash_djb2_64, rfl, ?noWrap, ?wrap, by decide, by decide,
    fun m => (digestDjb2_32_eq_trunc32 m).symm, by decide⟩
  case noWrap =>
    intro m hlen
    have hlt : djb2Unreduced m < 2 ^ 64 := (djb2Unreduced_lt hlen).trans (by decide)
    rw [toNat_digestDjb2_64, Nat.mod_eq_of_lt hlt]
  case wrap =>
    intro m hlen
    have hle : 5381 * 33 ^ 11 ≤ djb2Unreduced m := hlen ▸ le_djb2Unreduced m
    exact le_trans (by decide) hle

/-- Settles O17: shift and add at either width, and the closed form of the unreduced fold. -/
theorem djb2MultiplicationForm : Obligations.Djb2MultiplicationForm := by
  unfold Obligations.Djb2MultiplicationForm
  refine ⟨addW_shlW_five, addW_shlW_five, stepDjb2_32_eq, stepDjb2_64_eq, fun m => ?_⟩
  rw [toNat_digestDjb2_32, toNat_digestDjb2_64, djb2Unreduced_eq]
  exact ⟨rfl, rfl⟩

end Sys2Proof.Proofs
end

section
/-!
PROOF. DJB2-XOR (R130 to R132): on a byte, XOR and addition agree exactly when the addition has no carry (R132); the
other bits of an XOR step are those of `acc * 33` (R104).
-/

namespace Sys2Proof.Proofs

open Sys2Proof Sys2Proof.Machine

/-! ### When XOR is addition -/

/-- Each bit of a sum is the XOR of the two bits and the carry into it. -/
theorem xorW_eq_addW_iff_carry {w : Nat} {a b : BitVec w} :
    xorW a b = addW a b ↔ ∀ i < w, BitVec.carry i a b false = false := by
  have hbit {i : Nat} (hi : i < w) :
      (addW a b).getLsbD i = ((xorW a b).getLsbD i ^^ BitVec.carry i a b false) := by
    rw [getLsbD_xorW, Bool.xor_assoc]
    exact BitVec.getLsbD_add hi a b
  constructor
  · intro heq i hi
    have hsame := hbit hi
    rw [heq] at hsame
    exact (Bool.xor_right_inj.mp ((Bool.xor_false _).trans hsame)).symm
  · intro hcarry
    refine BitVec.eq_of_getLsbD_eq fun i hi => ?_
    rw [hbit hi, hcarry i hi, Bool.xor_false]

/-- R132: a shared one bit makes a carry, which the sum shows, since a byte has no bit at the top of a wider word. -/
theorem xorW_eq_addW_byte_iff {w : Nat} (hw : 8 < w) (t : BitVec w) (r : Byte) :
    xorW t (r.setWidth w) = addW t (r.setWidth w) ↔ t &&& r.setWidth w = 0 := by
  rw [xorW_eq_addW_iff_carry]
  constructor
  · intro hcarry
    refine BitVec.eq_of_getLsbD_eq fun i _ => ?_
    rw [BitVec.ofNat_eq_ofNat, BitVec.getLsbD_zero, BitVec.getLsbD_and]
    obtain hi | hi := Nat.lt_or_ge i 8
    · have hnext := hcarry (i + 1) (by omega)
      rwa [BitVec.carry_succ, hcarry i (by omega), Bool.atLeastTwo_false_right] at hnext
    · rw [BitVec.getLsbD_setWidth, BitVec.getLsbD_of_ge r i hi, Bool.and_false, Bool.and_false]
  · exact fun hdisjoint _ _ => BitVec.carry_of_and_eq_zero hdisjoint

/-! ### The steps -/

theorem stepDjb2Xor_32_eq (acc b : Word32) : stepDjb2Xor_32 acc b = xorW (mulW acc 33) b := by
  rw [stepDjb2Xor_32, addW_shlW_five]

theorem stepDjb2Xor_64_eq (acc b : Word) : stepDjb2Xor_64 acc b = xorW (mulW acc 33) b := by
  rw [stepDjb2Xor_64, addW_shlW_five]

theorem stepDjb2Xor_32_eq_stepDjb2_32_iff (acc : Word32) (r : Byte) :
    stepDjb2Xor_32 acc (zextByte32 r) = stepDjb2_32 acc (zextByte32 r) ↔ mulW acc 33 &&& zextByte32 r = 0 := by
  rw [stepDjb2Xor_32_eq, stepDjb2_32_eq]
  exact xorW_eq_addW_byte_iff (by decide) _ r

theorem stepDjb2Xor_64_eq_stepDjb2_64_iff (acc : Word) (r : Byte) :
    stepDjb2Xor_64 acc (zextByte64 r) = stepDjb2_64 acc (zextByte64 r) ↔ mulW acc 33 &&& zextByte64 r = 0 := by
  rw [stepDjb2Xor_64_eq, stepDjb2_64_eq]
  exact xorW_eq_addW_byte_iff (by decide) _ r

/-- R104: XOR with a byte leaves bits 8 and up alone. -/
theorem xorW_setWidth_byte_ushiftRight {w : Nat} (a : BitVec w) (r : Byte) : xorW a (r.setWidth w) >>> 8 = a >>> 8 := by
  refine BitVec.eq_of_getLsbD_eq fun i _ => ?_
  rw [BitVec.getLsbD_ushiftRight, BitVec.getLsbD_ushiftRight, getLsbD_xorW_setWidth_byte a r (Nat.le_add_right 8 i)]

/-! ### Obligations -/

/-- Settles O18: multiplication by 33 in both steps, and the carries of one addition. -/
theorem djb2XorAgainstDjb2 : Obligations.Djb2XorAgainstDjb2 := by
  unfold Obligations.Djb2XorAgainstDjb2
  exact ⟨stepDjb2Xor_32_eq, stepDjb2Xor_64_eq, stepDjb2Xor_32_eq_stepDjb2_32_iff, stepDjb2Xor_64_eq_stepDjb2_64_iff⟩

/-- Settles O7: the contract of every operation; a zero byte shares no one bit, so its step is that of DJB2; the values
by evaluation. -/
theorem hashDjb2Xor_32Rule : Obligations.HashDjb2Xor_32Rule := by
  unfold Obligations.HashDjb2Xor_32Rule
  refine ⟨operationContract .hash_djb2_32_xor, rfl, ?highBits, by decide, by decide, ?zeroByte, ?values⟩
  case highBits => exact fun acc r => xorW_setWidth_byte_ushiftRight _ r
  case zeroByte => exact fun acc => (stepDjb2Xor_32_eq_stepDjb2_32_iff acc 0).mpr BitVec.and_zero
  case values => decide

/-- Settles O8: the contract of every operation, and the truncation law of DJB2-XOR; the values by evaluation. -/
theorem hashDjb2Xor_64Rule : Obligations.HashDjb2Xor_64Rule := by
  unfold Obligations.HashDjb2Xor_64Rule
  exact ⟨operationContract .hash_djb2_64_xor, rfl, by decide,
    fun m => (digestDjb2Xor_32_eq_trunc32 m).symm, by decide⟩

end Sys2Proof.Proofs
end

section
/-!
PROOF. FNV-1a with reference multiplication (R140, R141): a byte XORed into `init(4)` changes its low eight bits only
(R104), so the first multiplication by the prime wraps whatever the byte is.
-/

namespace Sys2Proof.Proofs

open Sys2Proof Sys2Proof.Machine

/-! ### The first byte -/

/-- XOR with a byte takes a word no lower than its bits 8 and up. -/
theorem le_toNat_xorW_setWidth_byte {w : Nat} (a : BitVec w) (r : Byte) :
    a.toNat / 2 ^ 8 * 2 ^ 8 ≤ (xorW a (r.setWidth w)).toNat := by
  have hhigh : (xorW a (r.setWidth w)).toNat / 2 ^ 8 = a.toNat / 2 ^ 8 := by
    simpa [Nat.shiftRight_eq_div_pow] using congrArg BitVec.toNat (xorW_setWidth_byte_ushiftRight a r)
  exact hhigh ▸ Nat.div_mul_le_self _ _

/-- R140: the bound is already met by the bits of `init(4)` that no byte reaches. -/
theorem fnv1a_32_first_product_wraps (r : Byte) : 2 ^ 32 ≤ (xorW initFnv1a_32 (zextByte32 r)).toNat * 16777619 :=
  calc 2 ^ 32 ≤ initFnv1a_32.toNat / 2 ^ 8 * 2 ^ 8 * 16777619 := by decide
    _ ≤ (xorW initFnv1a_32 (zextByte32 r)).toNat * 16777619 :=
      Nat.mul_le_mul_right _ (le_toNat_xorW_setWidth_byte initFnv1a_32 r)

/-! ### Obligations -/

/-- Settles O9: the contract of every operation, with its number, word, `init` and `step` evaluated; the wrap at the
first byte; the values by evaluation. -/
theorem hashFnv1a_32Rule : Obligations.HashFnv1a_32Rule := by
  unfold Obligations.HashFnv1a_32Rule
  exact ⟨operationContract .hash_fnv1a_32, rfl, fnv1a_32_first_product_wraps, by decide⟩

/-- Settles O10: the contract of every operation; the values, the message "a" whose two digests break the truncation
law among them, by evaluation. -/
theorem hashFnv1a_64Rule : Obligations.HashFnv1a_64Rule := by
  unfold Obligations.HashFnv1a_64Rule
  exact ⟨operationContract .hash_fnv1a_64, rfl, by decide⟩

end Sys2Proof.Proofs
end

section
/-!
PROOF. FNV-1a with shift-optimised multiplication (R150 to R152): a sum of shifts of `t` is `t` times the sum of their
powers of two, which is the FNV prime; its terms may be added in any order.
-/

namespace Sys2Proof.Proofs

open Sys2Proof Sys2Proof.Machine

/-! ### Sums of shifts, at every width -/

/-- R103, R152: a further shift by `k` adds `2^k` to the factor. -/
theorem addW_mulW_shlW {w : Nat} (t : BitVec w) (n k : Nat) :
    addW (mulW t (BitVec.ofNat w n)) (shlW t k) = mulW t (BitVec.ofNat w (n + 2 ^ k)) := by
  rw [shlW_eq_mulW, BitVec.ofNat_add]
  exact BitVec.mul_add.symm

/-- R152: `t` itself counts once, and each shift by `k` counts `2^k` times. -/
theorem foldl_addW_shlW {w : Nat} (t : BitVec w) (ks : List Nat) :
    ks.foldl (fun sum k => addW sum (shlW t k)) t =
      mulW t (BitVec.ofNat w (ks.foldl (fun n k => n + 2 ^ k) 1)) := by
  have hone : mulW t (BitVec.ofNat w 1) = t := BitVec.mul_one t
  have hfold : ks.foldl (fun sum k => addW sum (shlW t k)) (mulW t (BitVec.ofNat w 1)) =
      mulW t (BitVec.ofNat w (ks.foldl (fun n k => n + 2 ^ k) 1)) :=
    List.foldl_hom (fun n => mulW t (BitVec.ofNat w n)) (addW_mulW_shlW t)
  rwa [hone] at hfold

/-- R150, R151: the terms of a sum in any order. -/
theorem foldl_addW_of_perm_cons {w : Nat} {t : BitVec w} {l ts : List (BitVec w)} (hperm : l.Perm (t :: ts)) :
    l.foldl addW 0 = ts.foldl addW t := by
  have hcomm (x y z : BitVec w) : addW (addW z x) y = addW (addW z y) x := add_right_comm z x y
  have hzero : addW 0 t = t := BitVec.zero_add t
  rw [hperm.foldl_eq' (fun x _ y _ => hcomm x y), List.foldl_cons, hzero]

/-! ### The two primes -/

theorem shiftSumFnv1aOpt_32_eq (t : Word32) : shiftSumFnv1aOpt_32 t = mulW t 16777619 :=
  foldl_addW_shlW t [1, 4, 7, 8, 24]

theorem shiftSumFnv1aOpt_64_eq (t : Word) : shiftSumFnv1aOpt_64 t = mulW t 1099511628211 :=
  foldl_addW_shlW t [1, 4, 5, 7, 8, 40]

theorem stepFnv1aOpt_32_eq (acc b : Word32) : stepFnv1aOpt_32 acc b = stepFnv1a_32 acc b :=
  shiftSumFnv1aOpt_32_eq (xorW acc b)

theorem stepFnv1aOpt_64_eq (acc b : Word) : stepFnv1aOpt_64 acc b = stepFnv1a_64 acc b :=
  shiftSumFnv1aOpt_64_eq (xorW acc b)

theorem digestFnv1aOpt_32_eq (m : List Byte) : digestFnv1aOpt_32 m = digestFnv1a_32 m := by
  simp only [digestFnv1aOpt_32, stepFnv1aOpt_32_eq]
  rfl

theorem digestFnv1aOpt_64_eq (m : List Byte) : digestFnv1aOpt_64 m = digestFnv1a_64 m := by
  simp only [digestFnv1aOpt_64, stepFnv1aOpt_64_eq]
  rfl

/-! ### Obligations -/

/-- Settles O19: the factor of each sum of shifts is the prime, so the steps agree, and with equal `init` the folds. -/
theorem shiftSumsEqualPrimeMultiplication : Obligations.ShiftSumsEqualPrimeMultiplication := by
  unfold Obligations.ShiftSumsEqualPrimeMultiplication
  exact ⟨by decide, by decide, shiftSumFnv1aOpt_32_eq, shiftSumFnv1aOpt_64_eq, stepFnv1aOpt_32_eq, stepFnv1aOpt_64_eq,
    fun m => ⟨digestFnv1aOpt_32_eq m, digestFnv1aOpt_64_eq m⟩⟩

/-- Settles O11: the contract of every operation, with its number, word, `init` and `step` evaluated; the six terms in
any order; the values by evaluation. -/
theorem hashFnv1aOpt_32Rule : Obligations.HashFnv1aOpt_32Rule := by
  unfold Obligations.HashFnv1aOpt_32Rule
  exact ⟨operationContract .hash_fnv1a_32_opt, rfl, fun _ _ => foldl_addW_of_perm_cons, by decide⟩

/-- Settles O12: as O11, with seven terms. -/
theorem hashFnv1aOpt_64Rule : Obligations.HashFnv1aOpt_64Rule := by
  unfold Obligations.HashFnv1aOpt_64Rule
  exact ⟨operationContract .hash_fnv1a_64_opt, rfl, fun _ _ => foldl_addW_of_perm_cons, by decide⟩

end Sys2Proof.Proofs
end

section
/-!
PROOF. SDBM (R160 to R162): `2^6 + 2^16` is `65599 + 1`, and the subtraction takes the one away, so the step is
`acc * 65599 + b` and a digest is the weighted sum of its bytes reduced modulo `2^W`, whose bound says which lengths
never wrap.
-/

namespace Sys2Proof.Proofs

open Sys2Proof Sys2Proof.Machine

/-! ### Multiplication by 65599 -/

/-- R162: the factor of the two shifts together is one more than 65599. -/
theorem addW_shlW_six_shlW_sixteen {w : Nat} (acc : BitVec w) :
    addW (shlW acc 6) (shlW acc 16) = addW (mulW acc 65599) acc :=
  calc addW (shlW acc 6) (shlW acc 16)
    _ = mulW acc (BitVec.ofNat w (2 ^ 6 + 2 ^ 16)) := by rw [shlW_eq_mulW acc 6, addW_mulW_shlW]
    _ = mulW acc (BitVec.ofNat w (65599 + 2 ^ 0)) := rfl
    _ = addW (mulW acc 65599) (shlW acc 0) := (addW_mulW_shlW acc 65599 0).symm
    _ = addW (mulW acc 65599) acc := congrArg (addW _) (BitVec.shiftLeft_zero acc)

/-- R162, at every width: the subtraction of R160 and R161 takes away the one `acc` too many. -/
theorem subW_addW_shlW_eq {w : Nat} (acc b : BitVec w) :
    subW (addW (addW b (shlW acc 6)) (shlW acc 16)) acc = addW (mulW acc 65599) b :=
  calc subW (addW (addW b (shlW acc 6)) (shlW acc 16)) acc
    _ = subW (addW b (addW (shlW acc 6) (shlW acc 16))) acc :=
      congrArg (subW · acc) (add_assoc b (shlW acc 6) (shlW acc 16))
    _ = subW (addW b (addW (mulW acc 65599) acc)) acc := by rw [addW_shlW_six_shlW_sixteen]
    _ = subW (addW (addW b (mulW acc 65599)) acc) acc :=
      congrArg (subW · acc) (add_assoc b (mulW acc 65599) acc).symm
    _ = addW b (mulW acc 65599) := add_sub_cancel_right (addW b (mulW acc 65599)) acc
    _ = addW (mulW acc 65599) b := add_comm b (mulW acc 65599)

theorem stepSdbm_32_eq (acc b : Word32) : stepSdbm_32 acc b = addW (mulW acc 65599) b :=
  subW_addW_shlW_eq acc b

theorem stepSdbm_64_eq (acc b : Word) : stepSdbm_64 acc b = addW (mulW acc 65599) b :=
  subW_addW_shlW_eq acc b

theorem toNat_digestSdbm_32 (m : List Byte) : (digestSdbm_32 m).toNat = sdbmUnreduced m % 2 ^ 32 := by
  simp only [digestSdbm_32, stepSdbm_32_eq]
  exact congrArg BitVec.toNat (foldl_addW_mulW_ofNat 32 65599 0 m)

theorem toNat_digestSdbm_64 (m : List Byte) : (digestSdbm_64 m).toNat = sdbmUnreduced m % 2 ^ 64 := by
  simp only [digestSdbm_64, stepSdbm_64_eq]
  exact congrArg BitVec.toNat (foldl_addW_mulW_ofNat 64 65599 0 m)

/-! ### The unreduced fold -/

/-- R162: with `init` 0 only the weighted sum of the bytes is left. -/
theorem sdbmUnreduced_eq (m : List Byte) : sdbmUnreduced m = weightedSum 65599 m := by
  rw [sdbmUnreduced, foldl_mul_add_eq, Nat.zero_mul, Nat.zero_add]

/-- R160, R161: the bytes after the first sum to less than one more unit of the first byte's weight. -/
theorem sdbmUnreduced_lt {m : List Byte} {n : Nat} (hlen : m.length ≤ n + 1) :
    sdbmUnreduced m < 256 * 65599 ^ n := by
  rw [sdbmUnreduced_eq]
  cases m with
  | nil => exact Nat.mul_pos (by decide) (Nat.pow_pos (by decide))
  | cons b m =>
    have hb : b.toNat ≤ 255 := Nat.le_of_lt_succ b.isLt
    have hsum : weightedSum 65599 m < 1 * 65599 ^ m.length := weightedSum_lt (by decide) (by decide) m
    calc weightedSum 65599 (b :: m)
      _ < 255 * 65599 ^ m.length + 1 * 65599 ^ m.length :=
        Nat.add_lt_add_of_le_of_lt (Nat.mul_le_mul_right _ hb) hsum
      _ = 256 * 65599 ^ m.length := (Nat.add_mul 255 1 _).symm
      _ ≤ 256 * 65599 ^ n :=
        Nat.mul_le_mul_left _ (Nat.pow_le_pow_right (by decide) (Nat.le_of_succ_le_succ hlen))

/-! ### Messages of zeros and of one byte -/

/-- A fold over copies of one byte stays where that byte's step stays. -/
theorem foldl_replicate_of_fixed {α β : Type} {f : β → α → β} {b : β} {a : α} (hfixed : f b a = b) (n : Nat) :
    (List.replicate n a).foldl f b = b := by
  induction n with
  | zero => rfl
  | succ n ih => rw [List.replicate_succ, List.foldl_cons, hfixed, ih]

theorem digestSdbm_32_zeros (n : Nat) : digestSdbm_32 (List.replicate n 0) = 0 :=
  foldl_replicate_of_fixed (by decide) n

theorem digestSdbm_64_zeros (n : Nat) : digestSdbm_64 (List.replicate n 0) = 0 :=
  foldl_replicate_of_fixed (by decide) n

/-- R160: the first step multiplies `init` 0. -/
theorem digestSdbm_32_singleton (b : Byte) : digestSdbm_32 [b] = zextByte32 b := by
  have hzero : mulW (0 : Word32) 65599 = 0 := by decide
  calc stepSdbm_32 0 (zextByte32 b)
    _ = addW 0 (zextByte32 b) := by rw [stepSdbm_32_eq, hzero]
    _ = zextByte32 b := BitVec.zero_add _

/-! ### Obligations -/

/-- Settles O20: each shift is a multiplication, the two and the subtraction make the factor 65599, and the unreduced
fold is the weighted sum. -/
theorem sdbmMultiplicationForm : Obligations.SdbmMultiplicationForm := by
  unfold Obligations.SdbmMultiplicationForm
  refine ⟨fun acc => ⟨shlW_eq_mulW acc 6, shlW_eq_mulW acc 16⟩, fun acc => ⟨shlW_eq_mulW acc 6, shlW_eq_mulW acc 16⟩,
    by decide, stepSdbm_32_eq, stepSdbm_64_eq, fun m => ?_⟩
  rw [toNat_digestSdbm_32, toNat_digestSdbm_64, sdbmUnreduced_eq]
  exact ⟨rfl, rfl⟩

/-- Settles O13: the contract of every operation, with its number, word, `init` and `step` evaluated; the bound on the
unreduced fold at 2 bytes, and three bytes 255 that pass it; the values by evaluation. -/
theorem hashSdbm_32Rule : Obligations.HashSdbm_32Rule := by
  unfold Obligations.HashSdbm_32Rule
  refine ⟨operationContract .hash_sdbm_32, rfl, by decide, digestSdbm_32_zeros, digestSdbm_32_singleton, by decide,
    by decide, ?noWrap, ⟨[255, 255, 255], by decide⟩, by decide, by decide⟩
  case noWrap =>
    intro m hlen
    have hlt : sdbmUnreduced m < 2 ^ 32 := (sdbmUnreduced_lt hlen).trans (by decide)
    rw [toNat_digestSdbm_32, Nat.mod_eq_of_lt hlt]

/-- Settles O14: as O13, with the bounds at 4 and 5 bytes and the truncation law of SDBM. -/
theorem hashSdbm_64Rule : Obligations.HashSdbm_64Rule := by
  unfold Obligations.HashSdbm_64Rule
  refine ⟨operationContract .hash_sdbm_64, rfl, digestSdbm_64_zeros, by decide, ?noWrap,
    ⟨[255, 255, 255, 255, 255], by decide⟩, fun m => (digestSdbm_32_eq_trunc32 m).symm, by decide⟩
  case noWrap =>
    intro m hlen
    have hlt : sdbmUnreduced m < 2 ^ 64 := (sdbmUnreduced_lt hlen).trans (by decide)
    rw [toNat_digestSdbm_64, Nat.mod_eq_of_lt hlt]

end Sys2Proof.Proofs
end

section
/-!
PROOF. Errors and idleness: an error is precise (R174), the block takes commands after it as before (R178), and an
idle `Instance` keeps its registers until a register write or a reset (R185).
-/

namespace Sys2Proof.Proofs

open Sys2Proof Sys2Proof.Machine

/-! ### The three answers to a write of `CMD` -/

/-- R91: a legal command written to a ready `Instance` on an absent or invalid reference. -/
theorem regWrite_refuse {s : State} {v : Word} {i : Instr} (hready : s.ready) (hop : decode v = .operation i)
    (hinvalid : ¬ validReference s.cfg.aw s.inst.src s.inst.len) :
    regWrite 2 v s = .next (s.setInst { s.inst with status := 0x16 }) :=
  (writeCmd_operation hop s).trans (exec_refuse hready hinvalid)

/-- R90: an illegal command written to a ready `Instance`. -/
theorem regWrite_illegal {s : State} {v : Word} (hready : s.ready) (hillegal : ∀ i, decode v ≠ .operation i) :
    regWrite 2 v s = .next (s.setInst { s.inst with status := 0x26 }) := by
  obtain ⟨-, -, -, hraises⟩ := reservedCommandWordsAreIllegal
  exact hraises v s hready hillegal

/-- R174: a write of `CMD` to a ready `Instance` is accepted, with `STATUS` 0x01, or changes `STATUS` alone. -/
theorem regWrite_cmd_accepts_or_errs {s : State} (hready : s.ready) (v : Word) :
    (∃ x : Instance, x.status = 0x01 ∧ regWrite 2 v s = .next (s.setInst x)) ∨
    (∃ w : Word, regWrite 2 v s = .next (s.setInst { s.inst with status := w })) := by
  by_cases hop : ∃ i, decode v = .operation i
  · obtain ⟨i, hop⟩ := hop
    by_cases hvalid : validReference s.cfg.aw s.inst.src s.inst.len
    · exact .inl ⟨_, rfl, regWrite_accept hready hop hvalid⟩
    · exact .inr ⟨_, regWrite_refuse hready hop hvalid⟩
  · exact .inr ⟨_, regWrite_illegal hready (not_exists.mp hop)⟩

/-! ### Errors (R174, R178) -/

/-- R93 to R95: of the steps of a running command only the one at a `fault` answer sets `ERR`. -/
theorem RunningStep.status_of_err {c : Config} {m : Memory} {i : Instr} {e e' : Instance}
    (h : RunningStep c m i e e') (hrunning : e.status = 0x01) (herr : statusErr e'.status = true) :
    e'.status = 0x16 := by
  cases h with
  | byte => exact absurd ((congrArg statusErr hrunning).symm.trans herr) (by decide)
  | fault => exact status_raiseInvalidInput_recordRead hrunning _
  | completed =>
    exact absurd ((congrArg statusErr (status_completionStep_of_running hrunning)).symm.trans herr) (by decide)

/-- Settles O38: a refused write replaces `STATUS` alone; an engine step that sets `ERR` is the fault step. -/
theorem errorsArePrecise : Obligations.ErrorsArePrecise := by
  unfold Obligations.ErrorsArePrecise
  refine ⟨?command, ?engine⟩
  case command =>
    intro s t v hready hwrite herr
    have hactive : s.active < s.insts.length := hready.1
    rcases regWrite_cmd_accepts_or_errs hready v with ⟨x, hx, hnext⟩ | ⟨w, hnext⟩ <;>
      obtain rfl := Host.Outcome.next.inj (hnext.symm.trans hwrite)
    · rw [State.inst_setInst s hactive, hx] at herr
      exact absurd herr (by decide)
    · rw [State.inst_setInst s hactive]
  case engine =>
    intro s t hinv hb hstep herr
    obtain ⟨hrunning, i, -, -, hrule⟩ := engineStep_running hinv hb hstep
    have hstatus := hrule.status_of_err hrunning herr
    obtain ⟨-, hfault⟩ := hrule.fault_of_status hrunning hstatus
    obtain ⟨-, -, hreadsOfFault, -, -⟩ := readsOfACommand
    obtain ⟨⟨m, hlength, -, hreads⟩, hnoMore⟩ := hreadsOfFault s t hinv hb hstep hstatus
    refine ⟨?_, ?_, ?_, ⟨m, hlength, hreads⟩, hnoMore⟩ <;> rw [hfault] <;> rfl

/-- R26, R178: both error words are legal ones with `BUSY` clear, so the next command is handled. -/
theorem ready_of_error {s : State} (hactive : s.active < s.insts.length)
    (herror : s.inst.status = 0x16 ∨ s.inst.status = 0x26) : s.ready := by
  refine ⟨hactive, ?_, ?_⟩
  · rcases herror with h | h <;> rw [h] <;> decide
  · rcases herror with h | h <;> rw [Instance.busy, h] <;> decide

/-- R200: a reset clears `STATUS` of the active `Instance`. -/
theorem status_resetEvent {s : State} (hactive : s.active < s.insts.length) : (resetEvent s).inst.status = 0 := by
  have hactive' : (resetEvent s).active < (resetEvent s).insts.length := by simpa [resetEvent] using hactive
  obtain ⟨e, -, hreset⟩ := resetInstances_getElem? (List.getElem?_eq_getElem hactive')
  rw [State.inst_eq_getElem _ hactive', hreset, resetInstance_status]

/-- Settles O39: an `Instance` with an error word is ready, so each answer to a command is that of R90 to R92. -/
theorem recoveryAfterAnError : Obligations.RecoveryAfterAnError := by
  unfold Obligations.RecoveryAfterAnError
  intro s hactive herror
  have hready := ready_of_error hactive herror
  have hstatus {x : Instance} {w : Word} (hx : x.status = w) : (s.setInst x).inst.status = w := by
    rw [State.inst_setInst s hactive, hx]
  exact ⟨fun v i hop hvalid => ⟨_, regWrite_accept hready hop hvalid, hstatus rfl⟩,
    fun v i hop hinvalid => ⟨_, regWrite_refuse hready hop hinvalid, hstatus rfl⟩,
    fun v hillegal => ⟨_, regWrite_illegal hready hillegal, hstatus rfl⟩,
    fun v => regWrite_of_three_le (by decide) v s, status_resetEvent hactive⟩

/-! ### Idleness (R185) -/

/-- A register write leaves the host's lines. -/
theorem portWrite_todo {aw : Nat} {i : RegIndex} {v : Word} {e e' : Instance} (h : PortWrite aw i v e e') :
    e'.todo = e.todo := by
  rcases h with ⟨-, rfl⟩ | ⟨-, rfl⟩ | ⟨-, -, rfl⟩ | ⟨-, -, -, rfl⟩ | ⟨-, j, -, -, rfl⟩ | ⟨-, rfl⟩ <;> rfl

/-- Settles O59: an idle engine agent has no step, and of a host's turns only a register write changes a register. -/
theorem idleBlockKeepsItsRegisters : Obligations.IdleBlockKeepsItsRegisters := by
  unfold Obligations.IdleBlockKeepsItsRegisters
  intro s t k e e' hstep he he' hidle
  rcases step_change hstep he he' with rfl | hhost | hengine | ⟨hreset, -⟩
  · exact .inl ⟨rfl, rfl, rfl, rfl⟩
  · rcases hhost with rfl | ⟨i, ls, -, rfl⟩ | ⟨i, v, rest, hline, ⟨-, rfl⟩ | ⟨-, hwrite⟩⟩
    · exact .inl ⟨rfl, rfl, rfl, rfl⟩
    · exact .inl ⟨rfl, rfl, rfl, rfl⟩
    · exact .inr (.inr ⟨i, v, rest, hline, rfl⟩)
    · exact .inr (.inr ⟨i, v, rest, hline, portWrite_todo hwrite⟩)
  · rcases hengine with ⟨-, rfl⟩ | ⟨hb, -⟩
    · exact .inl ⟨rfl, rfl, rfl, rfl⟩
    · exact absurd (hidle.symm.trans hb) Bool.false_ne_true
  · exact .inr (.inl hreset)

end Sys2Proof.Proofs
end

section
/-!
PROOF. Reset and hazards: what a busy `Instance` drops and serves (R211), what a handled command leaves in `STATUS`
(R217), a reset event in any state (R200), and what follows a reset (R201, R202).
-/

namespace Sys2Proof.Proofs

open Sys2Proof Sys2Proof.Machine

/-! ### A busy `Instance` (R211) -/

/-- R211: a busy `Instance` drops every register write. -/
theorem portNext_busy {e : Instance} (hb : e.busy = true) (aw : Nat) (i : RegIndex) (v : Word) :
    portNext aw i v e = e := by
  unfold portNext
  split
  · exact if_pos hb
  · exact if_pos hb
  · exact if_pos hb
  · rfl

/-- R76: a host's turn replaces its `Instance` by what its next line makes of it. -/
theorem step_host_eq {s : State} {k : Nat} {ts : List Turn} {e : Instance} (hturn : s.turns = .host k :: ts)
    (he : s.insts[k]? = some e) :
    step s = .next (((s.setTurns ts).setActive k).setInst (hostNext s.cfg.aw e)) := by
  rw [step, hturn]
  exact takeTurn_host_eq (s := s.setTurns ts) he

/-- R211: of a write, a host whose `Instance` is busy only loses the line. -/
theorem hostNext_write_busy {aw : Nat} {e : Instance} {i : RegIndex} {v : Word} {rest : List HostLine}
    (hb : e.busy = true) (hline : e.todo = .wr i v :: rest) : hostNext aw e = e.setTodo rest := by
  unfold hostNext
  rw [hline]
  exact portNext_busy (e := e.setTodo rest) hb aw i v

/-- R76: a host's read is served, whether its `Instance` is busy or not. -/
theorem hostNext_read {aw : Nat} {e : Instance} {i : RegIndex} {rest : List HostLine}
    (hline : e.todo = .rd i :: rest) : hostNext aw e = regRead i (e.setTodo rest) := by
  unfold hostNext
  rw [hline]

/-- Settles O31: the host's turn is `hostNext` of its `Instance`, which drops a write and serves a read. -/
theorem writesWhileBusyAreDropped : Obligations.WritesWhileBusyAreDropped := by
  unfold Obligations.WritesWhileBusyAreDropped
  refine ⟨fun s i v => regWrite_busy i v s, fun s k ts e i v rest hturn he hb => ⟨?write, ?read⟩⟩
  case write =>
    intro hline
    rw [step_host_eq hturn he, hostNext_write_busy hb hline]
    rfl
  case read =>
    intro hline
    rw [step_host_eq hturn he, hostNext_read hline]
    rfl

/-! ### No stale flags (R217) -/

/-- Settles O37: the three answers to a command, told apart by decoding and reference, leave three distinct words. -/
theorem noStaleDone : Obligations.NoStaleDone := by
  unfold Obligations.NoStaleDone
  intro s v hready
  have ⟨hactive, _, _⟩ := hready
  have haccepted : (0x01 : Word) ≠ 0x26 := by decide
  have hrefused : (0x16 : Word) ≠ 0x01 ∧ (0x16 : Word) ≠ 0x26 := by decide
  have hillegal : (0x26 : Word) ≠ 0x01 := by decide
  by_cases hop : ∃ i, decode v = .operation i
  · have hlegal : ¬ ∀ i, decode v ≠ .operation i := not_forall_not.mpr hop
    obtain ⟨i, hi⟩ := hop
    by_cases hvalid : validReference s.cfg.aw s.inst.src s.inst.len
    · refine ⟨_, regWrite_accept hready hi hvalid, ?_⟩
      rw [State.inst_setInst s hactive]
      exact ⟨.inl rfl, iff_of_true rfl ⟨⟨i, hi⟩, hvalid⟩, iff_of_false haccepted hlegal⟩
    · refine ⟨_, regWrite_refuse hready hi hvalid, ?_⟩
      rw [State.inst_setInst s hactive]
      exact ⟨.inr (.inl rfl), iff_of_false hrefused.1 fun h => hvalid h.2, iff_of_false hrefused.2 hlegal⟩
  · refine ⟨_, regWrite_illegal hready (not_exists.mp hop), ?_⟩
    rw [State.inst_setInst s hactive]
    exact ⟨.inr (.inr rfl), iff_of_false hillegal fun h => hop h.1, iff_of_true rfl (not_exists.mp hop)⟩

/-! ### Reset and what follows it (R200 to R202) -/

/-- R99: the turn of an idle engine agent changes nothing. -/
theorem takeTurn_engine_idle {s : State} {k : Nat} {e : Instance} (he : s.insts[k]? = some e)
    (hidle : e.busy = false) : takeTurn (.engine k) s = .next (s.setActive k) := by
  obtain ⟨hk, -⟩ := List.getElem?_eq_some_iff.mp he
  rw [takeTurn_engine hk]
  exact engineStep_idle _ (by rw [inst_setActive he, hidle])

/-- Settles O57: a reset turn makes of every `Instance` its reset one, whose engine agent is idle. -/
theorem resetEventFromAnyState : Obligations.ResetEventFromAnyState := by
  unfold Obligations.ResetEventFromAnyState
  intro s ts hturn
  have hstep : step s = .next (resetEvent (s.setTurns ts)) := by rw [step, hturn]; exact takeTurn_reset _
  refine ⟨_, hstep, rfl, rfl, rfl, length_resetInstances _ _ _, fun k e e' he he' => ?_⟩
  have hengine := takeTurn_engine_idle he'
  obtain ⟨x, hx, rfl⟩ := resetInstances_getElem? he'
  obtain rfl : x = e := Option.some.inj (hx.symm.trans he)
  exact ⟨rfl, rfl, rfl, rfl, rfl, rfl, rfl, hengine (busy_resetInstance _ _ x)⟩

/-- Settles O58: from `STATUS` 0 no engine agent has a step, and of the other events only commands write `STATUS`. -/
theorem nothingRunsUntilACommandIsWritten : Obligations.NothingRunsUntilACommandIsWritten := by
  unfold Obligations.NothingRunsUntilACommandIsWritten
  intro s t k e' hzero hstep he' hset
  obtain ⟨-, hlength, -, -⟩ := step_frame hstep
  obtain ⟨hk, -⟩ := List.getElem?_eq_some_iff.mp he'
  have he : s.insts[k]? = some s.insts[k] := List.getElem?_eq_getElem (hlength ▸ hk)
  have hstatus : s.insts[k].status = 0 := hzero _ (List.getElem_mem _)
  have hidle : ¬ s.insts[k].busy = true := by rw [Instance.busy, hstatus]; decide
  rcases step_event hstep he he' with hevent | ⟨-, rfl⟩
  · cases hevent with
    | quiet hkeep => exact absurd (hkeep.status.trans hstatus) hset
    | illegal _ hline | refused _ hline | accepted _ hline => exact ⟨_, _, _, he, hline, rfl⟩
    | byte hb | fault hb | completed hb => exact absurd hb hidle
  · exact absurd (resetInstance_status _ _ _) hset

/-- R75: the command word of an operation is its row of the opcode table. -/
theorem decodeTableWord_encode (i : Instr) : decodeTableWord 64 (encode i).toNat = some i := by
  have hmod : (encode i).toNat % 2 ^ 64 = (encode i).toNat := Nat.mod_eq_of_lt (encode i).isLt
  have hword : BitVec.ofNat 64 (encode i).toNat = encode i := by rw [BitVec.ofNat_toNat, BitVec.setWidth_eq]
  simp only [decodeTableWord, hmod, hword, decode_encode, if_pos (encode i).isLt]

/-- With no turn listed the engine agent of the one `Instance` moves when it is busy (log 5). -/
theorem step_busy_singleton {s : State} {e : Instance} (hturns : s.turns = []) (hinsts : s.insts = [e])
    (hb : e.busy = true) : step s = engineStep (s.setActive 0) := by
  have hfirst : firstWith Instance.busy 0 s.insts = some 0 := by rw [hinsts]; exact if_pos hb
  unfold step defaultMove
  rw [hturns, hfirst]

/-- R95: with an empty message the first engine step after acceptance writes the initial constant. -/
theorem engineNext_accept_empty (c : Config) (m : Memory) (i : Instr) {e : Instance} (hlegal : e.status ∈ legalStatus)
    (hlen : e.len = 0) :
    engineNext c m (accept (funcOf i) (initAcc i) e) =
      some { accept (funcOf i) (initAcc i) e with digest := initAcc i, status := 0x02 } := by
  have hdigest : digestValue (accept (funcOf i) (initAcc i) e).func (accept (funcOf i) (initAcc i) e).acc =
      initAcc i := by
    rw [accept_func, accept_acc, ← hashWord_nil, digestValue_hashWord]
  rw [engineNext_completion (statusAccepted_of_legal _ hlegal) (opOfFunc_funcOf i) hlen.symm, hdigest]

/-- Settles O60: the command is accepted with an empty message, so its engine agent, busy and with no turn listed,
completes in the next step. -/
theorem emptyMessageStraightAfterReset : Obligations.EmptyMessageStraightAfterReset := by
  unfold Obligations.EmptyMessageStraightAfterReset
  refine ⟨fun i => ?_, by decide⟩
  have hactive : State.reset.active < State.reset.insts.length := by decide
  obtain ⟨-, hfetch⟩ := stepRunsTheCommandWritten
  have haccept : step (State.reset.withFetchWord 64 (encode i).toNat) =
      .next (State.reset.setInst (accept (funcOf i) (initAcc i) State.reset.inst)) := by
    rw [hfetch _ _ _ i hactive (Nat.mod_lt _ (by decide)) (decodeTableWord_encode i), exec_eq_cmdNext,
      cmdNext_accept (by decide) (decode_encode i) (by decide)]
  have hcomplete : step (State.reset.setInst (accept (funcOf i) (initAcc i) State.reset.inst)) = .next
      (State.reset.setInst
        { accept (funcOf i) (initAcc i) State.reset.inst with digest := initAcc i, status := 0x02 }) :=
    (step_busy_singleton rfl rfl (busy_accept _ _ _)).trans
      (engineStep_setInst hactive (engineNext_accept_empty _ _ i (by decide) rfl))
  refine ⟨_, (runSteps_next 1 haccept).trans (runSteps_next 0 hcomplete), ?_⟩
  rw [State.inst_setInst _ hactive]
  exact ⟨rfl, rfl, rfl⟩

end Sys2Proof.Proofs
end
